-- ==== Sys2Proof/Word.lean ====
section
/-! DEFINITION. Word.lean: the word types of the engine's port, registers and cells. -/

namespace Sys2Proof

/-- One byte of a narrower channel (20_memory.md R45). -/
abbrev Byte := BitVec 8

/-- A command word or a response word, `CMD_W = RSP_W = 96` bits (00_scope.md R7). -/
abbrev PortWord := BitVec 96

/-- The data field of a command or response, `DATA_W = SEED_W = 64` bits (00_scope.md R7). -/
abbrev Data := BitVec 64

/-- The content of one RTR cell: `H_MAX` bits, held in the 32 bits of the largest `H_MAX` (R27, log entry 8). -/
abbrev CellWord := BitVec 32

/-- The content of `WPTR`: `H_MAX + 2` bits, held in the 34 bits of the largest `H_MAX` (R25, log entry 8). -/
abbrev Pointer := BitVec 34

end Sys2Proof
end

