-- ==== Sys2Proof/Syntax.lean ====
section
/-! DEFINITION. Syntax.lean: the ten commands, the fields of a command word, and the assembler's lines. -/

namespace Sys2Proof

/-- The ten commands, one constructor per row of opcode_table.json (30_encoding.md R65, R71). The operands are the
fields of the command word, unsigned (R64), in the order `A`, `B`, `D`. -/
inductive Instr where
  /-- `INIT bit_size, seed, rounds` (R106). -/
  | init (bitSize rounds : BitVec 8) (seed : Data)
  /-- `LDCFG bit_size` (R120). -/
  | ldcfg (bitSize : BitVec 8)
  /-- `LDENT v` (R121). -/
  | ldent (v : Data)
  /-- `LDEND` (R122). -/
  | ldend
  /-- `SEAL` (R123). -/
  | sealLoad
  /-- `ENC value` (R148). -/
  | enc (value : Data)
  /-- `DEC value` (R149). -/
  | dec (value : Data)
  /-- `RDT r, i` (R170). -/
  | rdt (r : BitVec 8) (i : Data)
  /-- `STAT` (R171). -/
  | stat
  /-- `RST` (R173). -/
  | rst
  deriving DecidableEq, Repr

/-- The six fields of a command word (30_encoding.md R62). -/
structure CmdFields where
  opc : BitVec 4
  rsv0 : BitVec 4
  a : BitVec 8
  b : BitVec 8
  rsv1 : BitVec 8
  d : Data
  deriving DecidableEq, Repr

/-- A line of the assembler's notation (30_encoding.md R72, R74, R75), its operands the integers written there. -/
inductive AsmLine where
  | init (bitSize seed rounds : Int)
  /-- The pseudo-instruction with the default round count (R74). -/
  | initDefault (bitSize seed : Int)
  | ldcfg (bitSize : Int)
  | ldent (v : Int)
  | ldend
  | sealLoad
  | enc (value : Int)
  | dec (value : Int)
  | rdt (r i : Int)
  | stat
  | rst
  /-- The pseudo-instruction for explicit construction (R75). -/
  | load (bitSize : Int) (tables : List (List Int))
  deriving DecidableEq, Repr

/-- A token of a line of assembler text (30_encoding.md R72, R75): a mnemonic or number, or one of the three signs. -/
inductive AsmToken where
  | word (chars : List Char)
  | comma
  | opening
  | closing
  deriving DecidableEq, Repr

end Sys2Proof
end

