-- ==== Sys2Proof/WellFormed.lean ====
section
/-! DEFINITION. WellFormed.lean: which command words are legal (30_encoding.md R63, R68) and which assembler lines are
commands at all (R72). -/

namespace Sys2Proof

/-- `OPC` is one of the ten assigned values (30_encoding.md R65). -/
def CmdFields.opcodeAssigned (f : CmdFields) : Bool := 1 ≤ f.opc.toNat && f.opc.toNat ≤ 10

/-- The opcodes whose row of R63 uses field `A`: `INIT`, `LDCFG`, `RDT`. -/
def CmdFields.usesA (f : CmdFields) : Bool := [0x1#4, 0x2#4, 0x8#4].contains f.opc

/-- The opcode whose row of R63 uses field `B`: `INIT`. -/
def CmdFields.usesB (f : CmdFields) : Bool := f.opc == 0x1#4

/-- The opcodes whose row of R63 uses field `D`: `INIT`, `LDENT`, `ENC`, `DEC`, `RDT`. -/
def CmdFields.usesD (f : CmdFields) : Bool := [0x1#4, 0x3#4, 0x6#4, 0x7#4, 0x8#4].contains f.opc

/-- Legality of a word, by its fields alone (30_encoding.md R68): an assigned opcode, zero reserved fields, and zero in
every field that R63 marks 0 for the opcode. -/
def CmdFields.legal (f : CmdFields) : Bool :=
  f.opcodeAssigned && f.rsv0 == 0 && f.rsv1 == 0 && (f.usesA || f.a == 0) && (f.usesB || f.b == 0)
    && (f.usesD || f.d == 0)

/-- The fields a command lays out in its word (30_encoding.md R62, R63). -/
def Instr.fields : Instr → CmdFields
  | .init a b d => { opc := 0x1, rsv0 := 0, a := a, b := b, rsv1 := 0, d := d }
  | .ldcfg a => { opc := 0x2, rsv0 := 0, a := a, b := 0, rsv1 := 0, d := 0 }
  | .ldent d => { opc := 0x3, rsv0 := 0, a := 0, b := 0, rsv1 := 0, d := d }
  | .ldend => { opc := 0x4, rsv0 := 0, a := 0, b := 0, rsv1 := 0, d := 0 }
  | .sealLoad => { opc := 0x5, rsv0 := 0, a := 0, b := 0, rsv1 := 0, d := 0 }
  | .enc d => { opc := 0x6, rsv0 := 0, a := 0, b := 0, rsv1 := 0, d := d }
  | .dec d => { opc := 0x7, rsv0 := 0, a := 0, b := 0, rsv1 := 0, d := d }
  | .rdt a d => { opc := 0x8, rsv0 := 0, a := a, b := 0, rsv1 := 0, d := d }
  | .stat => { opc := 0x9, rsv0 := 0, a := 0, b := 0, rsv1 := 0, d := 0 }
  | .rst => { opc := 0xA, rsv0 := 0, a := 0, b := 0, rsv1 := 0, d := 0 }

/-- A command is well formed when the fields it lays out are legal. Every `Instr` is: an operand has its field's width. -/
def Instr.wellFormed (i : Instr) : Bool := i.fields.legal

/-- An operand fits a field of `n` bits: not negative and below `2^n` (30_encoding.md R72). -/
def fitsField (n : Nat) (v : Int) : Bool := 0 ≤ v && v < 2 ^ n

/-- An assembler line whose operands all fit their fields; any other line is an assembly error (30_encoding.md R72). -/
def AsmLine.wellFormed : AsmLine → Bool
  | .init b s r => fitsField 8 b && fitsField 64 s && fitsField 8 r
  | .initDefault b s => fitsField 8 b && fitsField 64 s
  | .ldcfg b => fitsField 8 b
  | .ldent v => fitsField 64 v
  | .ldend => true
  | .sealLoad => true
  | .enc v => fitsField 64 v
  | .dec v => fitsField 64 v
  | .rdt r i => fitsField 8 r && fitsField 64 i
  | .stat => true
  | .rst => true
  | .load b ts => fitsField 8 b && ts.all (fun t => t.all (fitsField 64))

end Sys2Proof
end

