-- ==== Sys2Proof/Decode.lean ====
section
/-! DEFINITION. Decode.lean: from command words to commands, total and rejecting by name; then the encoder, the byte
transport of a word, and the assembler with its text (30_encoding.md R62 to R75, 20_memory.md R45). -/

namespace Sys2Proof

/-- Why 96 bits, or a string of bytes, are no command (30_encoding.md R68). -/
inductive Reject where
  /-- `RSV0` is not 0. -/
  | rsv0
  /-- `RSV1` is not 0. -/
  | rsv1
  /-- `OPC` is 0x0 or 0xB to 0xF. -/
  | reservedOpcode
  /-- `A` is not 0 and the command does not use it. -/
  | unusedA
  /-- `B` is not 0 and the command does not use it. -/
  | unusedB
  /-- `D` is not 0 and the command does not use it. -/
  | unusedD
  /-- Fewer than the 12 bytes of a word (20_memory.md R45). -/
  | truncated
  deriving DecidableEq, Repr

/-! ### The decoder -/

/-- The fields of a word by their bit positions (30_encoding.md R62). -/
def fieldsOf (w : PortWord) : CmdFields where
  opc := w.extractLsb' 0 4
  rsv0 := w.extractLsb' 4 4
  a := w.extractLsb' 8 8
  b := w.extractLsb' 16 8
  rsv1 := w.extractLsb' 24 8
  d := w.extractLsb' 32 64

/-- The commands by opcode, once the reserved fields are known to be 0 (30_encoding.md R71). -/
def decodeFields (f : CmdFields) : Except Reject Instr :=
  match f.opc.toNat with
  | 0x1 => .ok (.init f.a f.b f.d)
  | 0x2 => if f.b ≠ 0 then .error .unusedB else if f.d ≠ 0 then .error .unusedD else .ok (.ldcfg f.a)
  | 0x3 => if f.a ≠ 0 then .error .unusedA else if f.b ≠ 0 then .error .unusedB else .ok (.ldent f.d)
  | 0x4 => noOperands .ldend
  | 0x5 => noOperands .sealLoad
  | 0x6 => if f.a ≠ 0 then .error .unusedA else if f.b ≠ 0 then .error .unusedB else .ok (.enc f.d)
  | 0x7 => if f.a ≠ 0 then .error .unusedA else if f.b ≠ 0 then .error .unusedB else .ok (.dec f.d)
  | 0x8 => if f.b ≠ 0 then .error .unusedB else .ok (.rdt f.a f.d)
  | 0x9 => noOperands .stat
  | 0xA => noOperands .rst
  | _ => .error .reservedOpcode
where
  /-- A command that uses none of `A`, `B`, `D`. -/
  noOperands (i : Instr) : Except Reject Instr :=
    if f.a ≠ 0 then .error .unusedA else if f.b ≠ 0 then .error .unusedB
    else if f.d ≠ 0 then .error .unusedD else .ok i

/-- The decoder: a total function of the 96 bits, rejecting every illegal word by name (30_encoding.md R68, R71). -/
def decode (w : PortWord) : Except Reject Instr :=
  let f := fieldsOf w
  if f.rsv0 ≠ 0 then .error .rsv0 else if f.rsv1 ≠ 0 then .error .rsv1 else decodeFields f

/-- What the decoder reads from a word of `nbits` bits numbered as opcode_table.json numbers them (log entry 16). -/
def decodeTableWord (nbits w : Nat) : Option Instr :=
  match decode (BitVec.ofNat 96 (w % 2 ^ nbits)) with
  | .ok i => some i
  | .error _ => none

/-! ### The encoder -/

/-- The word with given fields, "as one number" (30_encoding.md R62). -/
def packFields (f : CmdFields) : PortWord :=
  BitVec.ofNat 96 (f.opc.toNat + f.rsv0.toNat * 2 ^ 4 + f.a.toNat * 2 ^ 8 + f.b.toNat * 2 ^ 16
    + f.rsv1.toNat * 2 ^ 24 + f.d.toNat * 2 ^ 32)

/-- The one word of a command (30_encoding.md R62, R63). -/
def encode (i : Instr) : PortWord := packFields i.fields

/-! ### The opcode table -/

/-- A row of opcode_table.json: a word is the row's command exactly when `w & mask = match` (30_encoding.md R71). -/
structure OpcodeRow where
  mnemonic : String
  word : PortWord
  mask : PortWord
  deriving DecidableEq, Repr

/-- The rows of opcode_table.json, `match` and `mask` as the table has them. -/
def opcodeRows : List OpcodeRow :=
  [ ⟨"INIT", 0x000000000000000000000001, 0x0000000000000000FF0000FF⟩,
    ⟨"LDCFG", 0x000000000000000000000002, 0xFFFFFFFFFFFFFFFFFFFF00FF⟩,
    ⟨"LDENT", 0x000000000000000000000003, 0x0000000000000000FFFFFFFF⟩,
    ⟨"LDEND", 0x000000000000000000000004, 0xFFFFFFFFFFFFFFFFFFFFFFFF⟩,
    ⟨"SEAL", 0x000000000000000000000005, 0xFFFFFFFFFFFFFFFFFFFFFFFF⟩,
    ⟨"ENC", 0x000000000000000000000006, 0x0000000000000000FFFFFFFF⟩,
    ⟨"DEC", 0x000000000000000000000007, 0x0000000000000000FFFFFFFF⟩,
    ⟨"RDT", 0x000000000000000000000008, 0x0000000000000000FFFF00FF⟩,
    ⟨"STAT", 0x000000000000000000000009, 0xFFFFFFFFFFFFFFFFFFFFFFFF⟩,
    ⟨"RST", 0x00000000000000000000000A, 0xFFFFFFFFFFFFFFFFFFFFFFFF⟩ ]

/-- The word is the row's command. -/
def OpcodeRow.hits (row : OpcodeRow) (w : PortWord) : Bool := w &&& row.mask == row.word

/-- The mnemonic of a command (30_encoding.md R65). -/
def Instr.mnemonic : Instr → String
  | .init .. => "INIT"
  | .ldcfg _ => "LDCFG"
  | .ldent _ => "LDENT"
  | .ldend => "LDEND"
  | .sealLoad => "SEAL"
  | .enc _ => "ENC"
  | .dec _ => "DEC"
  | .rdt .. => "RDT"
  | .stat => "STAT"
  | .rst => "RST"

/-! ### A word over a narrower channel (20_memory.md R45) -/

/-- Byte `k` of a transported word is bits `8k+7 : 8k`, byte 0 first. -/
def bytesOfWord (w : PortWord) : List Byte := (List.range 12).map (fun k => w.extractLsb' (8 * k) 8)

/-- The number whose bytes, least significant first, are the list. -/
def bytesToNat : List Byte → Nat
  | [] => 0
  | b :: bs => b.toNat + 2 ^ 8 * bytesToNat bs

/-- The decoder on a string of bytes: the first 12 are the word, the rest is returned. -/
def decodeBytes (bs : List Byte) : Except Reject (Instr × List Byte) :=
  if bs.length < 12 then .error .truncated
  else match decode (BitVec.ofNat 96 (bytesToNat (bs.take 12))) with
    | .ok i => .ok (i, bs.drop 12)
    | .error r => .error r

/-! ### The assembler (30_encoding.md R72, R74, R75) -/

/-- One table of the expansion of `LOAD`: its entries, then `LDEND` (R75). -/
def loadTable (t : List Data) : List Instr := t.map .ldent ++ [.ldend]

/-- The expansion of `LOAD bit_size, tables` (R75): purely syntactic, no length or range is checked. -/
def loadCommands (bitSize : BitVec 8) (tables : List (List Data)) : List Instr :=
  .ldcfg bitSize :: tables.flatMap loadTable ++ [.sealLoad]

/-- The default round count, supplied by the assembler's two-operand `INIT` (00_scope.md R8, 30_encoding.md R74). -/
def defaultRounds : BitVec 8 := 5

/-- The commands a line stands for, or `none` where an operand does not fit its field (30_encoding.md R72). -/
def assemble (l : AsmLine) : Option (List Instr) :=
  if l.wellFormed then
    some (match l with
      | .init b s r => [.init (.ofInt 8 b) (.ofInt 8 r) (.ofInt 64 s)]
      | .initDefault b s => [.init (.ofInt 8 b) defaultRounds (.ofInt 64 s)]
      | .ldcfg b => [.ldcfg (.ofInt 8 b)]
      | .ldent v => [.ldent (.ofInt 64 v)]
      | .ldend => [.ldend]
      | .sealLoad => [.sealLoad]
      | .enc v => [.enc (.ofInt 64 v)]
      | .dec v => [.dec (.ofInt 64 v)]
      | .rdt r i => [.rdt (.ofInt 8 r) (.ofInt 64 i)]
      | .stat => [.stat]
      | .rst => [.rst]
      | .load b ts => loadCommands (.ofInt 8 b) (ts.map (fun t => t.map (fun v => BitVec.ofInt 64 v))))
  else none

/-! ### The assembler's text (30_encoding.md R72, R75; log entry 13) -/

/-- A digit of base 16. -/
def digitOf (c : Char) : Option Nat :=
  if '0'.toNat ≤ c.toNat ∧ c.toNat ≤ '9'.toNat then some (c.toNat - '0'.toNat)
  else if 'A'.toNat ≤ c.toNat ∧ c.toNat ≤ 'F'.toNat then some (c.toNat - 'A'.toNat + 10)
  else if 'a'.toNat ≤ c.toNat ∧ c.toNat ≤ 'f'.toNat then some (c.toNat - 'a'.toNat + 10)
  else none

/-- Digits of a base, most significant first, after a number already read. -/
def digitsFrom (base : Nat) : Nat → List Char → Option Nat
  | n, [] => some n
  | n, c :: cs =>
    match digitOf c with
    | none => none
    | some d => if d < base then digitsFrom base (base * n + d) cs else none

/-- A number without a sign: "decimal, or hexadecimal with `0x`" (R72). -/
def naturalOf : List Char → Option Nat
  | [] => none
  | ['0', 'x'] => none
  | '0' :: 'x' :: ds => digitsFrom 16 0 ds
  | ds => digitsFrom 10 0 ds

/-- A number; a negative one is read, so that it can be rejected as an operand (R72). -/
def numberOf : List Char → Option Int
  | '-' :: ds => (naturalOf ds).map (fun n => -(n : Int))
  | ds => (naturalOf ds).map (fun n => (n : Int))

/-- The word read so far, as a token, if there is one. -/
def flushWord (acc : List Char) : List AsmToken := if acc.isEmpty then [] else [.word acc.reverse]

/-- The tokens of a line; "`;` starts a comment" (R72). The second argument is the word being read, reversed. -/
def tokens : List Char → List Char → List AsmToken
  | [], acc => flushWord acc
  | ';' :: _, acc => flushWord acc
  | ',' :: cs, acc => flushWord acc ++ .comma :: tokens cs []
  | '[' :: cs, acc => flushWord acc ++ .opening :: tokens cs []
  | ']' :: cs, acc => flushWord acc ++ .closing :: tokens cs []
  | c :: cs, acc => if c = ' ' || c = '\t' || c = '\r' then flushWord acc ++ tokens cs [] else tokens cs (c :: acc)

/-- Numbers separated by commas, at least one, to the end of the line. -/
def numberList : List AsmToken → Option (List Int)
  | [.word w] => (numberOf w).map (fun n => [n])
  | .word w :: .comma :: ts => (numberOf w).bind (fun n => (numberList ts).map (fun l => n :: l))
  | _ => none

/-- The operands of a command: none, or numbers separated by commas (R72). -/
def operandList : List AsmToken → Option (List Int)
  | [] => some []
  | ts => numberList ts

/-- The entries of a written table after its opening sign, at least one, and the tokens after its closing sign. -/
def entryList : List AsmToken → Option (List Int × List AsmToken)
  | .word w :: .closing :: ts => (numberOf w).map (fun n => ([n], ts))
  | .word w :: .comma :: ts => (numberOf w).bind (fun n => (entryList ts).map (fun p => (n :: p.1, p.2)))
  | _ => none

/-- One written table, and the tokens after it. -/
def writtenTable : List AsmToken → Option (List Int × List AsmToken)
  | .opening :: .closing :: ts => some ([], ts)
  | .opening :: ts => entryList ts
  | _ => none

/-- At least one written table, to the closing sign of the list of tables; the number bounds how many. -/
def writtenTables : Nat → List AsmToken → Option (List (List Int) × List AsmToken)
  | 0, _ => none
  | k + 1, ts =>
    match writtenTable ts with
    | some (t, .closing :: rest) => some ([t], rest)
    | some (t, .comma :: rest) => (writtenTables k rest).map (fun p => (t :: p.1, p.2))
    | _ => none

/-- The operands of `LOAD` (R75): a bit size and a list of tables. -/
def loadOperands : List AsmToken → Option AsmLine
  | [.word w, .comma, .opening, .closing] => (numberOf w).map (fun b => .load b [])
  | .word w :: .comma :: .opening :: ts =>
    match numberOf w, writtenTables ts.length ts with
    | some b, some (rows, []) => some (.load b rows)
    | _, _ => none
  | _ => none

/-- The line of a mnemonic with its operands (R72, R74). -/
def commandLine (mnemonic : List Char) (operands : List Int) : Option AsmLine :=
  match mnemonic, operands with
  | ['I', 'N', 'I', 'T'], [b, s, r] => some (.init b s r)
  | ['I', 'N', 'I', 'T'], [b, s] => some (.initDefault b s)
  | ['L', 'D', 'C', 'F', 'G'], [b] => some (.ldcfg b)
  | ['L', 'D', 'E', 'N', 'T'], [v] => some (.ldent v)
  | ['L', 'D', 'E', 'N', 'D'], [] => some .ldend
  | ['S', 'E', 'A', 'L'], [] => some .sealLoad
  | ['E', 'N', 'C'], [v] => some (.enc v)
  | ['D', 'E', 'C'], [v] => some (.dec v)
  | ['R', 'D', 'T'], [r, i] => some (.rdt r i)
  | ['S', 'T', 'A', 'T'], [] => some .stat
  | ['R', 'S', 'T'], [] => some .rst
  | _, _ => none

/-- One line of text: the commands it stands for, none for a blank line or a comment, an assembly error otherwise (R72). -/
def assembleLine (cs : List Char) : Option (List Instr) :=
  match tokens cs [] with
  | [] => some []
  | .word ['L', 'O', 'A', 'D'] :: ts => (loadOperands ts).bind assemble
  | .word m :: ts => ((operandList ts).bind (commandLine m)).bind assemble
  | _ => none

/-- The lines of a text: "one per line" (R72). -/
def linesOf : List Char → List Char → List (List Char)
  | [], acc => [acc.reverse]
  | '\n' :: cs, acc => acc.reverse :: linesOf cs []
  | c :: cs, acc => linesOf cs (c :: acc)

/-- The commands of the lines, in order; one line that is an assembly error makes the whole an error. -/
def assembleLines : List (List Char) → Option (List Instr)
  | [] => some []
  | l :: ls => (assembleLine l).bind (fun is => (assembleLines ls).map (fun rest => is ++ rest))

/-- A whole text (R72). -/
def assembleText (text : String) : Option (List Instr) := assembleLines (linesOf text.toList [])

end Sys2Proof
end

