-- ==== Sys2Proof/Config.lean ====
section
/-! DEFINITION. Config.lean: the parameters an engine is built with (00_scope.md R6). -/

namespace Sys2Proof

/-- Which generator the KSG is built with (00_scope.md R6, parameter `PRNG`): the default `SM64`, or the `n`-th of
the generators the spec leaves open (log entry 2). -/
inductive PrngChoice where
  | sm64
  | other (n : Nat)
  deriving DecidableEq, Repr

/-- The build parameters of one engine (00_scope.md R6). -/
structure Config where
  /-- `B_MAX`: the largest `bit_size` the engine can be constructed with. -/
  bMax : Nat
  /-- `R_MAX`: the largest number of rounds the RTR can hold. -/
  rMax : Nat
  /-- `PRNG`: the generator of the KSG. -/
  prng : PrngChoice
  deriving DecidableEq, Repr

/-- The admissible values of the parameters (00_scope.md R6); every `PRNG` choice is admissible. -/
abbrev Config.Admissible (c : Config) : Prop :=
  c.bMax % 2 = 0 ∧ 2 ≤ c.bMax ∧ c.bMax ≤ 64 ∧ 1 ≤ c.rMax ∧ c.rMax ≤ 255

/-- The default parameters (00_scope.md R6): `B_MAX = 16`, `R_MAX = 16`, `PRNG = SM64`. -/
def Config.default : Config := { bMax := 16, rMax := 16, prng := .sm64 }

/-- A pseudorandom generator's interface (41_keyschedule.md R101): a state type, `prng_init`, `prng_draw`. Law 1
(total and deterministic) holds of any pair of functions; law 2 is `Prng.InRange`; law 3 is how `ksg` calls `draw`. -/
structure Prng where
  S : Type
  init : Data → S
  draw : S → Nat → Nat × S

/-- Law 2 of R101: a draw of `h` bits lies in `[0, 2^h)`. -/
def Prng.InRange (g : Prng) : Prop := ∀ s h, (g.draw s h).1 < 2 ^ h

/-- Parameter of the engine (00_scope.md R6, log entry 2): the initial state of the `n`-th generator the spec leaves
open, from a seed. It has no body, so nothing can be proved of its value. -/
opaque Config.otherInit : Nat → Data → Nat

/-- Parameter of the engine (00_scope.md R6, log entry 2): one draw of the `n`-th generator the spec leaves open, from
its state and the number of bits `h`. It has no body; Machine/KeySchedule.lean keeps its low `h` bits (law 2). -/
opaque Config.otherDraw : Nat → Nat → Nat → Nat × Nat

end Sys2Proof
end

