-- ==== Sys2Proof/Machine/State.lean ====
section
/-! DEFINITION. State.lean: the state of the engine and of its port, as plain data, and the state after reset
(10_state.md; 70_reset_and_hazards.md R210). -/

namespace Sys2Proof.Machine

/-- `PHASE` (10_state.md R22): its three legal values; the code 3 "is never taken" (log entry 10). -/
inductive Phase where
  /-- No cipher exists. -/
  | empty
  /-- An explicit table load is in progress. -/
  | loading
  /-- A cipher exists and is immutable. -/
  | ready
  deriving DecidableEq, Repr

/-- The address of a cell, the pair `(r, i)` of round and index (20_memory.md R40, log entry 5). -/
abbrev CellAddr := Nat × Nat

/-- The round table store: the cells that hold a value, addresses strictly rising (10_state.md R27, log entry 5). A cell
that is not listed holds no value. -/
abbrev Memory := List (CellAddr × CellWord)

/-- What the outside world does to the engine between two steps, in the order in which the port serialises it
(30_encoding.md R61; 60_exceptions.md R192, R200; log entries 3 and 12). -/
inductive HostEvent where
  /-- A host presents one command word (30_encoding.md R60). -/
  | command (w : PortWord)
  /-- Hardware reset; `cut` is the command word it cuts short, if one was in progress (R210, log entry 4). -/
  | reset (cut : Option PortWord)
  deriving DecidableEq, Repr

/-- The state of the engine (10_state.md section 1) and of its two ports (R210). -/
structure State where
  /-- The build parameters (00_scope.md R6). No step changes them (log entry 1). -/
  cfg : Config
  /-- `PHASE` (R22). -/
  phase : Phase
  /-- `BITSZ` (R23). -/
  bitsz : BitVec 8
  /-- `ROUNDS` (R24). -/
  rounds : BitVec 8
  /-- `WPTR` (R25). -/
  wptr : Pointer
  /-- `RTR` (R27). -/
  rtr : Memory
  /-- The command port: the events still to come, oldest first (R60, R213). -/
  inputs : List HostEvent
  /-- The response port: the response words emitted so far, oldest first (R66, R221). The engine never reads it (log
  entry 9). -/
  rsps : List PortWord
  deriving DecidableEq, Repr

/-- Where a step stops. The spec's commands never do (60_exceptions.md R203): both faults need a state that violates the
invariant of R29, which no run from reset reaches. -/
inductive Fault where
  /-- `ENC`, `DEC` or `RDT` reads a cell that holds no value, or that the RTR does not have (20_memory.md R41). Safe: the
  model stops where the spec gives no behaviour (log entry 6). -/
  | cellWithoutValue
  /-- `INIT` or `LDENT` stores to a cell the RTR does not have, or a value that `H_MAX` bits cannot hold (20_memory.md
  R41). Safe: the model stops where the spec gives no behaviour (log entry 7). -/
  | cellOutsideStore
  deriving DecidableEq, Repr

/-- Refusals. Every command has its meaning, so none is ever raised. -/
inductive Refusal where
  /-- Raised by an arm of `exec` for a command without a meaning: by none here. Safe. -/
  | notModelled (mnemonic : String)
  deriving DecidableEq, Repr

/-- The state of an engine with given parameters right after hardware reset, nothing on its ports (R32, R210). -/
def State.resetOf (c : Config) : State :=
  { cfg := c, phase := .empty, bitsz := 0, rounds := 0, wptr := 0, rtr := [], inputs := [], rsps := [] }

/-- The machine right after reset, built with the default parameters (00_scope.md R6; R32, R210). -/
def State.reset : State := State.resetOf Config.default

end Sys2Proof.Machine
end

