-- ==== Sys2Proof/Machine/Operands.lean ====
section
/-! DEFINITION. Operands.lean: the quantities derived from `bit_size`, the capacities derived from the parameters, and the
bijection_validator's predicates over operands and registers (10_state.md R26, 00_scope.md R6, 40_validator.md). -/

namespace Sys2Proof.Machine

/-! ### Derived from `bit_size` (10_state.md R26) -/

/-- `half(b)`, the source's `half_size`; `HALF` is `half BITSZ`. -/
def half (b : Nat) : Nat := b / 2

/-- `maxs(b)`, the source's `max_shuffle`. -/
def maxs (b : Nat) : Nat := 2 ^ half b

/-- `tlen(b)`, the source's `table_length`. -/
def tlen (b : Nat) : Nat := 2 * maxs b

/-- `MASK` of a bit size. -/
def mask (b : Nat) : Nat := maxs b - 1

/-- `DOM` of a bit size: the size of the domain `[0, 2^bit_size)`. -/
def dom (b : Nat) : Nat := 2 ^ b

/-- `XOFF`, the offset of the second read of a round, the one definition of it (20_memory.md R43). -/
def xoff (b : Nat) : Nat := half b

/-- The code of a phase in `PHASE` (10_state.md R22). -/
def Phase.code : Phase → BitVec 2
  | .empty => 0
  | .loading => 1
  | .ready => 2

/-! ### Derived from the parameters (00_scope.md R6) -/

/-- `H_MAX = B_MAX / 2`: the width of a cell. -/
def hMax (c : Config) : Nat := c.bMax / 2

/-- `M_MAX = 2^H_MAX`: one more than the largest value of a cell. -/
def mMax (c : Config) : Nat := 2 ^ hMax c

/-- `L_MAX = 2 * M_MAX`: the number of cells of one round. -/
def lMax (c : Config) : Nat := 2 * mMax c

/-! ### The validator's predicates (40_validator.md) -/

/-- `valid_bit_size(b)` (R81). -/
def validBitSize (b : Nat) : Bool := b % 2 == 0 && 2 ≤ b

/-- `valid_rounds(n)` (R82). -/
def validRounds (n : Nat) : Bool := 1 ≤ n

/-- `valid_entry(b, v)` (R83). -/
def validEntry (b v : Nat) : Bool := v < maxs b

/-- `valid_table_len(b, n)` (R84), as `LDEND` checks it. -/
def validTableLen (b n : Nat) : Bool := n == tlen b

/-- The half of R84 that `LDENT` checks: the table has room for one more entry. -/
def roomInTable (b n : Nat) : Bool := n < tlen b

/-- `in_domain(b, v)` (R85). -/
def inDomain (b v : Nat) : Bool := v < dom b

/-- `fits_bits(b)` (R86). -/
def fitsBits (c : Config) (b : Nat) : Bool := b ≤ c.bMax

/-- `fits_rounds(n)` (R86). -/
def fitsRounds (c : Config) (n : Nat) : Bool := n ≤ c.rMax

/-- `fits_rounds` in the form `LDENT` checks before it writes an entry of a further table (R86). -/
def roomForTable (c : Config) (n : Nat) : Bool := n < c.rMax

/-- `valid_tables(b, ts)` (R87), the source's whole check for explicit construction. -/
def validTables (b : Nat) (ts : List (List Nat)) : Bool :=
  validBitSize b && validRounds ts.length && ts.all (fun t => validTableLen b t.length && t.all (validEntry b))

end Sys2Proof.Machine
end

