-- ==== Sys2Proof/Machine/Flags.lean ====
section
/-! DEFINITION. Flags.lean: the engine has no flags that persist (10_state.md R28). What a command reports is the status
field of its own response word, and the control registers are seen through the word of `STAT` (30_encoding.md R66, R67;
60_exceptions.md R185; 44_status_control.md R171). -/

namespace Sys2Proof.Machine

/-- The status of a response (60_exceptions.md R185). -/
inductive Status where
  | ok
  | config
  | domain
  | seq
  | illegal
  | cap
  | index
  deriving DecidableEq, Repr

/-- The code of a status in `ST` (60_exceptions.md R185). -/
def Status.code : Status → BitVec 4
  | .ok => 0
  | .config => 1
  | .domain => 2
  | .seq => 3
  | .illegal => 4
  | .cap => 5
  | .index => 6

/-- The response word with a status and a result, "as one number" (30_encoding.md R66). -/
def packResponse (st : Status) (res : Data) : PortWord :=
  BitVec.ofNat 96 (st.code.toNat + res.toNat * 2 ^ 32)

/-- The field `ST` of a response word (30_encoding.md R66). -/
def stOf (w : PortWord) : BitVec 4 := w.extractLsb' 0 4

/-- The bits `31:4` of a response word, "always 0" (30_encoding.md R66). -/
def middleOf (w : PortWord) : BitVec 28 := w.extractLsb' 4 28

/-- The field `RES` of a response word (30_encoding.md R66). -/
def resOf (w : PortWord) : Data := w.extractLsb' 32 64

/-- The packed control registers that `STAT` answers (44_status_control.md R171). -/
def statWord (p : Phase) (bitsz rounds : BitVec 8) (wptr : Pointer) : Data :=
  BitVec.ofNat 64 (p.code.toNat + bitsz.toNat * 2 ^ 8 + rounds.toNat * 2 ^ 16 + wptr.toNat * 2 ^ 24)

end Sys2Proof.Machine
end

