-- ==== Sys2Proof/Machine/Ops.lean ====
section
/-! DEFINITION. Ops.lean: the operations the commands share: cells of the RTR (20_memory.md R40, R41), the response and
the error response (60_exceptions.md R186), and the two ways back to `EMPTY` (10_state.md R32, R33). -/

namespace Sys2Proof.Machine

/-! ### The store as a list -/

/-- The order of cell addresses: by round, then by index. -/
def addrLt (p q : CellAddr) : Bool := p.1 < q.1 || (p.1 == q.1 && p.2 < q.2)

/-- The canonical form: addresses strictly rising. An unlisted cell holds no value and a listed one holds one, so no entry
equals what an unlisted address reads as (log entry 5). -/
def Memory.wf : Memory → Bool
  | [] => true
  | [_] => true
  | p :: q :: m => addrLt p.1 q.1 && Memory.wf (q :: m)

/-- The value of a cell, if it holds one. -/
def Memory.read : Memory → CellAddr → Option CellWord
  | [], _ => none
  | (p, v) :: m, a => if a = p then some v else Memory.read m a

/-- The store with one cell made equal to a value, its place kept in order. -/
def Memory.write : Memory → CellAddr → CellWord → Memory
  | [], a, v => [(a, v)]
  | (p, u) :: m, a, v =>
    if addrLt a p then (a, v) :: (p, u) :: m else if a = p then (a, v) :: m else (p, u) :: Memory.write m a v

/-- The store with many cells written. The addresses of the list are all different wherever this is used, so the order of
the writes cannot be seen (log entry 11). -/
def Memory.writeAll (m : Memory) (cells : List (CellAddr × CellWord)) : Memory :=
  cells.foldr (fun c acc => acc.write c.1 c.2) m

/-! ### The cells of an engine -/

/-- The engine has the cell `(r, i)`: `r < R_MAX` and `i < L_MAX` (20_memory.md R40). -/
def cellExists (c : Config) (a : CellAddr) : Bool := a.1 < c.rMax && a.2 < lMax c

/-- A cell of the engine can hold the value: it has `H_MAX` bits (10_state.md R27). -/
def cellHolds (c : Config) (v : Nat) : Bool := v < mMax c

/-- `MemRead((r, i), 1)`, written `RTR[r][i]` (20_memory.md R41): `none` where the cell holds no value. -/
def State.readCell (s : State) (r i : Nat) : Option CellWord :=
  if cellExists s.cfg (r, i) then s.rtr.read (r, i) else none

/-- `MemWrite((r, i), 1, v)`, written `RTR[r][i] <- v` (20_memory.md R41): `none` where there is no such cell or the cell
cannot hold the value. -/
def State.writeCell (s : State) (r i v : Nat) : Option State :=
  if cellExists s.cfg (r, i) && cellHolds s.cfg v then
    some { s with rtr := s.rtr.write (r, i) (BitVec.ofNat 32 v) }
  else none

/-- The entries of one table with their addresses, from index `i` on, in order. -/
def rowCells (r : Nat) : Nat → List Nat → List (CellAddr × Nat)
  | _, [] => []
  | i, v :: vs => ((r, i), v) :: rowCells r (i + 1) vs

/-- The entries of the tables with their addresses, from round `r` on, in order (20_memory.md R53). -/
def tableCells : Nat → List (List Nat) → List (CellAddr × Nat)
  | _, [] => []
  | r, t :: ts => rowCells r 0 t ++ tableCells (r + 1) ts

/-- `RTR[r][i] <- T[r][i]` for every entry of the tables (41_keyschedule.md R106): `none` where one has no place. -/
def State.writeTables (s : State) (ts : List (List Nat)) : Option State :=
  let cells := tableCells 0 ts
  if cells.all (fun c => cellExists s.cfg c.1 && cellHolds s.cfg c.2) then
    some { s with rtr := s.rtr.writeAll (cells.map (fun c => (c.1, BitVec.ofNat 32 c.2))) }
  else none

/-! ### Responses -/

/-- The state after the response word has been emitted (30_encoding.md R61, R66). -/
def State.emit (s : State) (st : Status) (res : Data) : State := { s with rsps := s.rsps ++ [packResponse st res] }

/-- `respond(OK, res)`: the command completes (00_scope.md R10). -/
def State.respond (s : State) (res : Data) : Host.Outcome State Fault Refusal := .next (s.emit .ok res)

/-- `raise ST(code)`: the command ends with that status and result 0 (60_exceptions.md R186). This is the engine's whole
exception entry: nothing is saved, control goes nowhere, and there is no return (R194, R195). -/
def State.raise (s : State) (st : Status) : Host.Outcome State Fault Refusal := .next (s.emit st 0)

/-! ### The two ways back to `EMPTY` -/

/-- The effect of hardware reset on the engine; the ports' histories are the host side's (10_state.md R32, R210). -/
def State.hardReset (s : State) : State := { s with phase := .empty, bitsz := 0, rounds := 0, wptr := 0, rtr := [] }

/-- `abort_load()`, the effect of a failed construction step (10_state.md R33). -/
def State.abortLoad (s : State) : State := { s with phase := .empty, bitsz := 0, rounds := 0, wptr := 0, rtr := [] }

end Sys2Proof.Machine
end

