-- ==== Sys2Proof/Machine/Control.lean ====
section
/-! DEFINITION. Control.lean: observation and control, `RDT`, `STAT`, `RST` (44_status_control.md). -/

namespace Sys2Proof.Machine

/-- `RDT r, i` (44_status_control.md R170). -/
def execRdt (a : BitVec 8) (d : Data) (s : State) : Host.Outcome State Fault Refusal :=
  if s.phase ≠ .ready then s.raise .seq
  else if s.rounds.toNat ≤ a.toNat || tlen s.bitsz.toNat ≤ d.toNat then s.raise .index
  else match s.readCell a.toNat d.toNat with
    | none => .fault .cellWithoutValue
    | some v => s.respond (v.setWidth 64)

/-- `STAT` (44_status_control.md R171). -/
def execStat (s : State) : Host.Outcome State Fault Refusal := s.respond (statWord s.phase s.bitsz s.rounds s.wptr)

/-- `RST` (44_status_control.md R173): the same effect as hardware reset, and a response. -/
def execRst (s : State) : Host.Outcome State Fault Refusal := s.hardReset.respond 0

end Sys2Proof.Machine
end

