-- ==== Sys2Proof/Machine/KeySchedule.lean ====
section
/-! DEFINITION. KeySchedule.lean: the keyschedule_generator and `INIT` (41_keyschedule.md). -/

namespace Sys2Proof.Machine

/-! ### The generators -/

/-- The increment of `SM64` (41_keyschedule.md R104; its constants by log entry 17). -/
def gamma : Data := 0x9E3779B97F4A7C15

/-- `mix64` (41_keyschedule.md R104): on 64-bit words, modulo `2^64`. -/
def mix64 (z : Data) : Data :=
  let z1 := (z ^^^ (z >>> 30)) * 0xBF58476D1CE4E5B9
  let z2 := (z1 ^^^ (z1 >>> 27)) * 0x94D049BB133111EB
  z2 ^^^ (z2 >>> 31)

/-- `sm64_draw` (41_keyschedule.md R104): the state advances first, then the top `h` bits of its mix are the draw. -/
def sm64Draw (s : Data) (h : Nat) : Nat × Data :=
  let s' := s + gamma
  ((mix64 s').toNat >>> (64 - h), s')

/-- The default generator `SM64` (41_keyschedule.md R104): the seed is the state. -/
def sm64 : Prng where
  S := Data
  init := fun seed => seed
  draw := sm64Draw

/-- The `n`-th generator the spec leaves open (41_keyschedule.md R101, log entry 2). The reduction makes law 2 hold; a
generator that meets law 2 is not changed by it. -/
def otherPrng (n : Nat) : Prng where
  S := Nat
  init := Config.otherInit n
  draw := fun s h => ((Config.otherDraw n s h).1 % 2 ^ h, (Config.otherDraw n s h).2)

/-- The generator an engine is built with (00_scope.md R6). -/
def prngOf : PrngChoice → Prng
  | .sm64 => sm64
  | .other n => otherPrng n

/-! ### The schedule -/

/-- One table of `n` entries by `n` draws of `h` bits, in order of position, and the state of the generator after them. -/
def drawTable (g : Prng) (h : Nat) : Nat → g.S → List Nat × g.S
  | 0, s => ([], s)
  | n + 1, s =>
    let d := g.draw s h
    let rest := drawTable g h n d.2
    (d.1 :: rest.1, rest.2)

/-- `n` tables of `len` entries, in order of round, the state of the generator running on. -/
def drawTables (g : Prng) (h len : Nat) : Nat → g.S → List (List Nat)
  | 0, _ => []
  | n + 1, s =>
    let t := drawTable g h len s
    t.1 :: drawTables g h len n t.2

/-- `ksg(b, seed, n)` (41_keyschedule.md R102). -/
def ksg (g : Prng) (b : Nat) (seed : Data) (n : Nat) : List (List Nat) :=
  drawTables g (half b) (tlen b) n (g.init seed)

/-! ### `INIT` -/

/-- `INIT bit_size, seed, rounds` (41_keyschedule.md R106). -/
def execInit (a b : BitVec 8) (d : Data) (s : State) : Host.Outcome State Fault Refusal :=
  if s.phase ≠ .empty then s.raise .seq
  else if !(validBitSize a.toNat && validRounds b.toNat) then s.raise .config
  else if !(fitsBits s.cfg a.toNat && fitsRounds s.cfg b.toNat) then s.raise .cap
  else match s.writeTables (ksg (prngOf s.cfg.prng) a.toNat d b.toNat) with
    | none => .fault .cellOutsideStore
    | some s' => State.respond { s' with phase := .ready, bitsz := a, rounds := b, wptr := 0 } 0

end Sys2Proof.Machine
end

