-- ==== Sys2Proof/Machine/TableLoad.lean ====
section
/-! DEFINITION. TableLoad.lean: construction from explicit tables, `LDCFG`, `LDENT`, `LDEND`, `SEAL` (42_table_load.md). -/

namespace Sys2Proof.Machine

/-- `LDCFG bit_size` (42_table_load.md R120). -/
def execLdcfg (a : BitVec 8) (s : State) : Host.Outcome State Fault Refusal :=
  if s.phase ≠ .empty then s.raise .seq
  else if !validBitSize a.toNat then s.raise .config
  else if !fitsBits s.cfg a.toNat then s.raise .cap
  else State.respond { s with phase := .loading, bitsz := a, rounds := 0, wptr := 0 } 0

/-- `LDENT v` (42_table_load.md R121). -/
def execLdent (d : Data) (s : State) : Host.Outcome State Fault Refusal :=
  if s.phase ≠ .loading then s.raise .seq
  else if !roomInTable s.bitsz.toNat s.wptr.toNat then s.abortLoad.raise .config
  else if !validEntry s.bitsz.toNat d.toNat then s.abortLoad.raise .config
  else if !roomForTable s.cfg s.rounds.toNat then s.abortLoad.raise .cap
  else match s.writeCell s.rounds.toNat s.wptr.toNat d.toNat with
    | none => .fault .cellOutsideStore
    | some s' => State.respond { s' with wptr := s'.wptr + 1 } 0

/-- `LDEND` (42_table_load.md R122). -/
def execLdend (s : State) : Host.Outcome State Fault Refusal :=
  if s.phase ≠ .loading then s.raise .seq
  else if !validTableLen s.bitsz.toNat s.wptr.toNat then s.abortLoad.raise .config
  else State.respond { s with rounds := s.rounds + 1, wptr := 0 } 0

/-- `SEAL` (42_table_load.md R123). -/
def execSeal (s : State) : Host.Outcome State Fault Refusal :=
  if s.phase ≠ .loading then s.raise .seq
  else if s.wptr ≠ 0 then s.abortLoad.raise .config
  else if !validRounds s.rounds.toNat then s.abortLoad.raise .config
  else State.respond { s with phase := .ready } 0

end Sys2Proof.Machine
end

