-- ==== Sys2Proof/Machine/Transform.lean ====
section
/-! DEFINITION. Transform.lean: the bit_splitter_mixer, `ENC` and `DEC` (43_transform.md). -/

namespace Sys2Proof.Machine

/-! ### Arithmetic, split and join -/

/-- `addm(a, t) = (a + t) mod M` (43_transform.md R141). -/
def addm (m a t : Nat) : Nat := (a + t) % m

/-- `subm(a, t) = (a - t) mod M` with the non-negative remainder (43_transform.md R141, 00_scope.md R9). -/
def subm (m a t : Nat) : Nat := (((a : Int) - (t : Int)) % (m : Int)).toNat

/-- The two halves `(x, y)` of a value: `x` the low half, `y` the high half. -/
abbrev Halves := Nat × Nat

/-- `split(b, v)` (43_transform.md R140). -/
def split (b v : Nat) : Halves := (v &&& mask b, (v >>> half b) &&& mask b)

/-- `join(b, x, y)` (43_transform.md R145). -/
def join (b : Nat) (p : Halves) : Nat := (p.2 <<< half b) ||| p.1

/-! ### The round and its inverse -/

/-- A round table as a round sees it: the entry at an index, `none` where there is none. -/
abbrev RoundTable := Nat → Option Nat

/-- A table written out as a list of entries. -/
def tableOf (t : List Nat) : RoundTable := fun i => t[i]?

/-- `round_fwd(b, T, (x, y))` (43_transform.md R143): the second read uses the `x` just computed. -/
def roundFwd (b : Nat) (t : RoundTable) (p : Halves) : Option Halves :=
  match t p.2 with
  | none => none
  | some u =>
    let x' := addm (maxs b) p.1 u
    match t (x' + xoff b) with
    | none => none
    | some w => some (x', addm (maxs b) p.2 w)

/-- `round_inv(b, T, (x, y))` (43_transform.md R144): the second read uses the `y` just restored. -/
def roundInv (b : Nat) (t : RoundTable) (p : Halves) : Option Halves :=
  match t (p.1 + xoff b) with
  | none => none
  | some w =>
    let y' := subm (maxs b) p.2 w
    match t y' with
    | none => none
    | some u => some (subm (maxs b) p.1 u, y')

/-- The forward rounds in schedule order, round 0 first (43_transform.md R146). -/
def roundsFwd (b : Nat) : List RoundTable → Halves → Option Halves
  | [], p => some p
  | t :: ts, p => (roundFwd b t p).bind (roundsFwd b ts)

/-- The inverse rounds in reverse schedule order, last round first (43_transform.md R147). -/
def roundsInv (b : Nat) : List RoundTable → Halves → Option Halves
  | [], p => some p
  | t :: ts, p => (roundsInv b ts p).bind (roundInv b t)

/-! ### The transforms -/

/-- `encode_fn(b, Ts, v)` (43_transform.md R146); `none` only where a round reads an entry that is not there. -/
def encodeFn (b : Nat) (ts : List RoundTable) (v : Nat) : Option Nat := (roundsFwd b ts (split b v)).map (join b)

/-- `decode_fn(b, Ts, v)` (43_transform.md R147); `none` only where a round reads an entry that is not there. -/
def decodeFn (b : Nat) (ts : List RoundTable) (v : Nat) : Option Nat := (roundsInv b ts (split b v)).map (join b)

/-- Round `r`'s table in the RTR: each entry is one cell, read when the round asks for it (20_memory.md R42). -/
def State.roundTable (s : State) (r : Nat) : RoundTable := fun i => (s.readCell r i).map BitVec.toNat

/-- `[RTR[0], ..., RTR[ROUNDS-1]]` (43_transform.md R148). -/
def State.schedule (s : State) : List RoundTable := (List.range s.rounds.toNat).map s.roundTable

/-! ### `ENC` and `DEC` -/

/-- `ENC value` (43_transform.md R148). -/
def execEnc (d : Data) (s : State) : Host.Outcome State Fault Refusal :=
  if s.phase ≠ .ready then s.raise .seq
  else if !inDomain s.bitsz.toNat d.toNat then s.raise .domain
  else match encodeFn s.bitsz.toNat s.schedule d.toNat with
    | none => .fault .cellWithoutValue
    | some v => s.respond (BitVec.ofNat 64 v)

/-- `DEC value` (43_transform.md R149). -/
def execDec (d : Data) (s : State) : Host.Outcome State Fault Refusal :=
  if s.phase ≠ .ready then s.raise .seq
  else if !inDomain s.bitsz.toNat d.toNat then s.raise .domain
  else match decodeFn s.bitsz.toNat s.schedule d.toNat with
    | none => .fault .cellWithoutValue
    | some v => s.respond (BitVec.ofNat 64 v)

end Sys2Proof.Machine
end

