-- ==== Sys2Proof/Machine/Dispatch.lean ====
section
/-! DEFINITION. Dispatch.lean: one arm per command, one direct call of its meaning. -/

namespace Sys2Proof.Machine

def exec (i : Instr) (s : State) : Host.Outcome State Fault Refusal :=
  match i with
  | .init a b d => Sys2Proof.Machine.execInit a b d s
  | .ldcfg a => Sys2Proof.Machine.execLdcfg a s
  | .ldent d => Sys2Proof.Machine.execLdent d s
  | .ldend => Sys2Proof.Machine.execLdend s
  | .sealLoad => Sys2Proof.Machine.execSeal s
  | .enc d => Sys2Proof.Machine.execEnc d s
  | .dec d => Sys2Proof.Machine.execDec d s
  | .rdt a d => Sys2Proof.Machine.execRdt a d s
  | .stat => Sys2Proof.Machine.execStat s
  | .rst => Sys2Proof.Machine.execRst s

end Sys2Proof.Machine
end

