-- ==== Sys2Proof/Machine/Port.lean ====
section
/-! DEFINITION. Port.lean: what the engine does with one event of its command port (30_encoding.md R60, R61). -/

namespace Sys2Proof.Machine

/-- A command word: decoded and executed, or answered `ILLEGAL` with no other effect, whatever the phase (30_encoding.md
R68; 60_exceptions.md R193). -/
def acceptCommand (w : PortWord) (s : State) : Host.Outcome State Fault Refusal :=
  match decode w with
  | .error _ => s.raise .illegal
  | .ok i => exec i s

/-- Hardware reset: the engine is in its reset state whatever the command it cuts short had done, and no response is owed
(70_reset_and_hazards.md R210, log entry 4). -/
def acceptReset (_cut : Option PortWord) (s : State) : Host.Outcome State Fault Refusal := .next s.hardReset

/-- The event of a step. -/
def acceptEvent (e : HostEvent) (s : State) : Host.Outcome State Fault Refusal :=
  match e with
  | .command w => acceptCommand w s
  | .reset cut => acceptReset cut s

/-- The command word that a table word stands for (log entry 16). -/
def tableCommand (nbits w : Nat) : PortWord := BitVec.ofNat 96 (w % 2 ^ nbits)

end Sys2Proof.Machine
end

