-- ==== Sys2Proof/Machine/Step.lean ====
section
/-! DEFINITION. Step.lean: one step of the engine: the next event of its command port, whole (30_encoding.md R61). -/

namespace Sys2Proof.Machine

/-- One step: the oldest event of the command port is taken and carried out whole. With no event waiting the engine stands
still: it "never acts unasked" (70_reset_and_hazards.md R219, log entry 3). -/
def step (s : State) : Host.Outcome State Fault Refusal :=
  match s.inputs with
  | [] => .next s
  | e :: rest => acceptEvent e { s with inputs := rest }

/-- The state whose next step receives the command word `w`, numbered as opcode_table.json numbers it: the host presents
that word next (log entries 3 and 16). -/
def State.withFetchWord (s : State) (nbits w : Nat) : State :=
  { s with inputs := .command (tableCommand nbits w) :: s.inputs }

end Sys2Proof.Machine
end

