-- ==== Sys2Proof/Safety.lean ====
section
/-! DEFINITION. Safety.lean: the invariant of the engine, what a host can see of a run, and the terms in which the
statements speak of the commands. Nothing here is used by the machine. -/

namespace Sys2Proof.Machine

/-! ### The invariant (10_state.md R29) -/

/-- "`RTR[r][i]` is written and `RTR[r][i] < MAXS`" (10_state.md R29). -/
def State.validCell (s : State) (r i : Nat) : Bool :=
  match s.readCell r i with
  | some v => v.toNat < maxs s.bitsz.toNat
  | none => false

/-- `wf(state)`, clause by clause (10_state.md R29). -/
abbrev State.wf (s : State) : Prop :=
  (s.phase = .empty → s.bitsz = 0 ∧ s.rounds = 0 ∧ s.wptr = 0)
  ∧ (s.phase ≠ .empty → s.bitsz.toNat % 2 = 0 ∧ 2 ≤ s.bitsz.toNat ∧ s.bitsz.toNat ≤ s.cfg.bMax)
  ∧ (s.phase = .loading →
      s.rounds.toNat ≤ s.cfg.rMax ∧ s.wptr.toNat ≤ tlen s.bitsz.toNat
      ∧ (s.rounds.toNat = s.cfg.rMax → s.wptr = 0)
      ∧ (∀ r < s.rounds.toNat, ∀ i < tlen s.bitsz.toNat, s.validCell r i = true)
      ∧ (∀ i < s.wptr.toNat, s.validCell s.rounds.toNat i = true))
  ∧ (s.phase = .ready →
      1 ≤ s.rounds.toNat ∧ s.rounds.toNat ≤ s.cfg.rMax ∧ s.wptr = 0
      ∧ (∀ r < s.rounds.toNat, ∀ i < tlen s.bitsz.toNat, s.validCell r i = true))

/-- The cells that belong to the cipher, or to the part of it loaded so far; every other cell holds no value
(10_state.md R27, R32, R33; 93_implementation_defined.md U6). -/
def State.owns (s : State) (a : CellAddr) : Bool :=
  match s.phase with
  | .empty => false
  | .loading => a.2 < tlen s.bitsz.toNat && (a.1 < s.rounds.toNat || (a.1 == s.rounds.toNat && a.2 < s.wptr.toNat))
  | .ready => a.1 < s.rounds.toNat && a.2 < tlen s.bitsz.toNat

/-- The invariant of the whole machine: admissible parameters, `wf`, a store in canonical form, and no cell with a value
but the ones the engine owns. -/
abbrev State.Inv (s : State) : Prop :=
  s.cfg.Admissible ∧ s.wf ∧ s.rtr.wf = true ∧ ∀ c ∈ s.rtr, s.owns c.1 = true

/-! ### What a host sees (44_status_control.md R172) -/

/-- The architectural state of an engine: the state without what stands on its ports. -/
def State.arch (s : State) : State := { s with inputs := [], rsps := [] }

/-- The last response emitted carries this status. -/
def State.lastStatusIs (s : State) (st : Status) : Bool :=
  match s.rsps.getLast? with
  | some w => stOf w == st.code
  | none => false

/-- A response word as the spec allows it: `ST` one of the seven codes, the bits `31:4` zero, `RES` zero whenever `ST` is
not `OK` (30_encoding.md R66). -/
def legalResponse (w : PortWord) : Bool :=
  (stOf w).toNat ≤ 6 && middleOf w == 0 && (stOf w == 0 || resOf w == 0)

/-- The response a command gets in a state, if the step has one. -/
def answerOf (i : Instr) (s : State) : Option PortWord :=
  match exec i s with
  | .next t => t.rsps.getLast?
  | .fault _ => none
  | .refused _ => none

/-- "Gone wrong", the safety predicate of a run that 60_exceptions.md R203 offers: some response had `ST != OK`. -/
def State.goneWrong (s : State) : Bool := s.rsps.any (fun w => stOf w != 0)

/-! ### The commands in classes -/

/-- Which command is allowed in which phase (60_exceptions.md R187, the table). -/
def allowed : Instr → Phase → Bool
  | .init .., p => p == .empty
  | .ldcfg _, p => p == .empty
  | .ldent _, p => p == .loading
  | .ldend, p => p == .loading
  | .sealLoad, p => p == .loading
  | .enc _, p => p == .ready
  | .dec _, p => p == .ready
  | .rdt .., p => p == .ready
  | .stat, _ => true
  | .rst, _ => true

/-- The commands that write no architectural state in any phase (10_state.md R34). -/
def readOnly : Instr → Bool
  | .enc _ => true
  | .dec _ => true
  | .rdt .. => true
  | .stat => true
  | .init .. => false
  | .ldcfg _ => false
  | .ldent _ => false
  | .ldend => false
  | .sealLoad => false
  | .rst => false

/-- The steps of a load that abort it when they fail with `CONFIG` or `CAP` (10_state.md R33). -/
def loadStep : Instr → Bool
  | .ldent _ => true
  | .ldend => true
  | .sealLoad => true
  | .init .. => false
  | .ldcfg _ => false
  | .enc _ => false
  | .dec _ => false
  | .rdt .. => false
  | .stat => false
  | .rst => false

/-- The causes of `CONFIG` (60_exceptions.md R188, the table), in the phase that allows the command. -/
def configCause (i : Instr) (s : State) : Prop :=
  match i with
  | .init a b _ => s.phase = .empty ∧ (a.toNat % 2 = 1 ∨ a = 0 ∨ b = 0)
  | .ldcfg a => s.phase = .empty ∧ (a.toNat % 2 = 1 ∨ a = 0)
  | .ldent d => s.phase = .loading ∧ (tlen s.bitsz.toNat ≤ s.wptr.toNat ∨ maxs s.bitsz.toNat ≤ d.toNat)
  | .ldend => s.phase = .loading ∧ s.wptr.toNat ≠ tlen s.bitsz.toNat
  | .sealLoad => s.phase = .loading ∧ (s.wptr ≠ 0 ∨ s.rounds = 0)
  | .enc _ => False
  | .dec _ => False
  | .rdt .. => False
  | .stat => False
  | .rst => False

/-- The causes of `CAP` (40_validator.md R86): a valid configuration, or a further table, that the engine has no room for. -/
def capCause (i : Instr) (s : State) : Prop :=
  match i with
  | .init a b _ =>
    s.phase = .empty ∧ validBitSize a.toNat = true ∧ b ≠ 0 ∧ (s.cfg.bMax < a.toNat ∨ s.cfg.rMax < b.toNat)
  | .ldcfg a => s.phase = .empty ∧ validBitSize a.toNat = true ∧ s.cfg.bMax < a.toNat
  | .ldent d =>
    s.phase = .loading ∧ s.wptr.toNat < tlen s.bitsz.toNat ∧ d.toNat < maxs s.bitsz.toNat
      ∧ s.cfg.rMax ≤ s.rounds.toNat
  | .ldend => False
  | .sealLoad => False
  | .enc _ => False
  | .dec _ => False
  | .rdt .. => False
  | .stat => False
  | .rst => False

/-! ### Several commands in a row -/

/-- The commands one after the other, whatever each answers. -/
def runAll : List Instr → State → Host.Outcome State Fault Refusal
  | [], s => .next s
  | i :: is, s =>
    match exec i s with
    | .next t => runAll is t
    | .fault f => .fault f
    | .refused r => .refused r

/-- A driver that "stops at the first response whose `ST != OK`" (30_encoding.md R75). -/
def drive : List Instr → State → Host.Outcome State Fault Refusal
  | [], s => .next s
  | i :: is, s =>
    match exec i s with
    | .next t => if t.lastStatusIs .ok then drive is t else .next t
    | .fault f => .fault f
    | .refused r => .refused r

/-! ### Round tables as the laws speak of them (43_transform.md, sections 3 and 6) -/

/-- A valid table of a bit size: length `2M`, entries in `[0, M)`. -/
abbrev ValidTable (b : Nat) (t : List Nat) : Prop := t.length = tlen b ∧ ∀ v ∈ t, v < maxs b

/-- A valid schedule: any list of valid tables (43_transform.md, before R150). -/
abbrev ValidSchedule (b : Nat) (ts : List (List Nat)) : Prop := ∀ t ∈ ts, ValidTable b t

/-- An even bit size of at least 2 (43_transform.md: "Throughout, `b` is an even bit size `>= 2`"). -/
abbrev EvenSize (b : Nat) : Prop := b % 2 = 0 ∧ 2 ≤ b

/-- Draw number `k` of a generation, from 0 (41_keyschedule.md R102). -/
def drawNumber (g : Prng) (h : Nat) : Nat → g.S → Nat
  | 0, s => (g.draw s h).1
  | k + 1, s => drawNumber g h k (g.draw s h).2

/-- The table with a load's entries read as numbers. -/
def tablesToNat (ts : List (List Data)) : List (List Nat) := ts.map (fun t => t.map BitVec.toNat)

end Sys2Proof.Machine
end

