-- ==== Sys2Proof/Certificates/Slice0/Obligations.lean ====
section
/-! DEFINITION. Obligations.lean: the statements for the provers, each a sentence of the spec or a consequence of some. -/

open Sys2Proof Sys2Proof.Machine

/-! ### Encoding (30_encoding.md) -/

/-- "Each legal word decodes to exactly one command and each command value has exactly one encoding" (R71): for every command
with every operand value, decoding its word gives it back, and a word that decodes to it is its word. -/
def Obligations.DecodeAndEncodeAreInverse : Prop :=
  ∀ i : Instr, decode (encode i) = .ok i ∧ ∀ w : PortWord, decode w = .ok i → encode i = w

/-- The decoder of R71 accepts a word exactly when R68 calls it legal: R68 is written from the table of R63, the decoder from
the pseudocode of R71. -/
def Obligations.DecoderAcceptsExactlyTheLegalWords : Prop :=
  ∀ w : PortWord, (∃ i, decode w = .ok i) ↔ (fieldsOf w).legal = true

/-- "A word is the row's command exactly when `cmd & mask = match`" (R71), for every row of opcode_table.json. -/
def Obligations.OpcodeTableRowsMatchTheDecoder : Prop :=
  ∀ row ∈ opcodeRows, ∀ w : PortWord, row.hits w = true ↔ ∃ i, decode w = .ok i ∧ i.mnemonic = row.mnemonic

/-- The example words of R72 and some of 95_test_vectors.md section 2 decode to the commands they stand for (a sanity
statement on fixed words). -/
def Obligations.ExampleWordsDecode : Prop :=
  decode 0x000000000000002A00050801 = .ok (.init 8 5 42)
  ∧ decode 0x000000000000000000000402 = .ok (.ldcfg 4)
  ∧ decode 0x000000000000000300000003 = .ok (.ldent 3)
  ∧ decode 0x000000000000001100000006 = .ok (.enc 17)
  ∧ decode 0x000000000000001F00000408 = .ok (.rdt 4 31)
  ∧ decode 0x00000000000000000000000A = .ok .rst

/-- A word carried over a narrower channel, byte 0 first (R45), is decoded as the word is, and the bytes after it are left. -/
def Obligations.ByteTransportKeepsTheWord : Prop :=
  ∀ (w : PortWord) (rest : List Byte),
    decodeBytes (bytesOfWord w ++ rest)
      = (match decode w with
        | .ok i => .ok (i, rest)
        | .error r => .error r)

/-- The assembler's `INIT` (R72, R74): operands that fit their fields arrive in the command as the numbers written, the
two-operand form supplies 5 rounds, and an operand that does not fit is an assembly error. -/
def Obligations.AssembledInitCarriesItsOperands : Prop :=
  (∀ b s r : Int, 0 ≤ b → b < 256 → 0 ≤ s → s < 2 ^ 64 → 0 ≤ r → r < 256 →
    (∃ (a n : BitVec 8) (d : Data), assemble (.init b s r) = some [.init a n d]
      ∧ (a.toNat : Int) = b ∧ (n.toNat : Int) = r ∧ (d.toNat : Int) = s)
    ∧ assemble (.initDefault b s) = assemble (.init b s 5))
  ∧ (∀ b s r : Int, (b < 0 ∨ 256 ≤ b ∨ s < 0 ∨ 2 ^ 64 ≤ s) →
      assemble (.initDefault b s) = none ∧ assemble (.init b s r) = none)
  ∧ (∀ b s r : Int, (r < 0 ∨ 256 ≤ r) → assemble (.init b s r) = none)

/-- The expansion of `LOAD` (R75): operands that fit give `2 + n + sum(len_k)` commands, `LDCFG` first and `SEAL` last, and the entries
sent are the tables' entries in order. -/
def Obligations.LoadExpandsToItsCommands : Prop :=
  ∀ (b : Int) (rows : List (List Int)), 0 ≤ b → b < 256 → (∀ t ∈ rows, ∀ v ∈ t, 0 ≤ v ∧ v < 2 ^ 64) →
    ∃ (a : BitVec 8) (is : List Instr), (a.toNat : Int) = b
      ∧ assemble (.load b rows) = some (.ldcfg a :: is ++ [.sealLoad])
      ∧ is.length = rows.length + (rows.map List.length).sum
      ∧ (is.filterMap (fun i => match i with
          | .ldent v => some (v.toNat : Int)
          | _ => none)) = rows.flatten

/-- "`;` starts a comment" (R72): what follows it on the line does not matter. -/
def Obligations.CommentsDoNotMatter : Prop :=
  ∀ cs rest : List Char, assembleLine (cs ++ ';' :: rest) = assembleLine cs

/-! ### A step (30_encoding.md R60, R61; 70_reset_and_hazards.md) -/

/-- When the next event is a command word that decodes to `i`, the step is `exec i` once the word is taken from the port; with no
event waiting the engine stands still (the model's reading of R219, log entry 3). -/
def Obligations.StepRunsTheDecodedCommand : Prop :=
  (∀ (s : State) (w : PortWord) (rest : List HostEvent) (i : Instr),
    s.inputs = .command w :: rest → decode w = .ok i → step s = exec i { s with inputs := rest })
  ∧ ∀ s : State, s.inputs = [] → step s = .next s

/-- "An illegal word is answered with `ST = ILLEGAL`, `RES = 0`, and changes no state in any phase" (R68). -/
def Obligations.IllegalWordIsAnsweredWithoutEffect : Prop :=
  ∀ (s : State) (w : PortWord) (rest : List HostEvent),
    s.inputs = .command w :: rest → (fieldsOf w).legal = false →
      step s = .next { s with inputs := rest, rsps := s.rsps ++ [0x4] }

/-- Hardware reset, in any state and whether or not it cuts a command short, leaves every register at its value of R210, no
cell with a value, and no response for the command cut short. That nothing at all is put on the response port is the model's
choice (log entry 4); the parameters are fixed for the engine (log entry 1). -/
def Obligations.HardwareResetDiscardsTheCommand : Prop :=
  ∀ (s : State) (cut : Option PortWord) (rest : List HostEvent),
    s.inputs = .reset cut :: rest →
      ∃ t, step s = .next t ∧ t.phase = .empty ∧ t.bitsz = 0 ∧ t.rounds = 0 ∧ t.wptr = 0
        ∧ (∀ r i, t.readCell r i = none) ∧ t.cfg = s.cfg ∧ t.inputs = rest ∧ t.rsps = s.rsps

/-- "Every command is answered by one 96-bit response word" (R66): from every state that meets the invariant, the step that
takes a command word emits one response, `rsp = ST + RES * 2^32` with one of the seven codes, zero bits `31:4`, and `RES = 0`
whenever `ST != OK`. -/
def Obligations.EveryCommandWordGetsOneResponse : Prop :=
  ∀ (s : State) (w : PortWord) (rest : List HostEvent), s.Inv → s.inputs = .command w :: rest →
    ∃ t rsp, step s = .next t ∧ t.inputs = rest ∧ t.rsps = s.rsps ++ [rsp]
      ∧ rsp.toNat = (stOf rsp).toNat + (resOf rsp).toNat * 2 ^ 32
      ∧ (stOf rsp).toNat ≤ 6 ∧ middleOf rsp = 0 ∧ (stOf rsp ≠ 0 → resOf rsp = 0)

/-- Response words stay as R66 allows them: an invariant every step keeps, in any state. For a hardware reset, alone or inside a
command, this rests on the model's choice that nothing is put on the response port then, which R221 leaves open (log entry 4). -/
def Obligations.EveryStepKeepsResponsesLegal : Prop :=
  ∀ s t : State, step s = .next t → (∀ w ∈ s.rsps, legalResponse w = true) → ∀ w ∈ t.rsps, legalResponse w = true

/-- No step changes the parameters the engine was built with (R6; that they stand in State is log entry 1). -/
def Obligations.NoStepChangesTheParameters : Prop := ∀ s t : State, step s = .next t → t.cfg = s.cfg

/-- A run of command words (R221) from any state that meets the invariant ends after one step for each word, with one
response for each word: no word faults, hangs or is refused (R203, which the spec marks as its own inference). -/
def Obligations.RunAnswersEveryCommandWord : Prop :=
  ∀ (s : State) (ws : List PortWord), s.Inv → s.inputs = ws.map .command →
    ∃ t rs, Host.Core.run core ws.length s = .next t ∧ t.inputs = [] ∧ t.rsps = s.rsps ++ rs ∧ rs.length = ws.length

/-! ### The invariant (10_state.md R29) -/

/-- The machine's invariant holds after hardware reset, for every admissible choice of parameters. -/
def Obligations.InvariantHoldsAfterReset : Prop := State.reset.Inv ∧ ∀ c : Config, c.Admissible → (State.resetOf c).Inv

/-- "The following predicate `wf` holds after reset and is preserved by every command" (R29, which the spec marks as its own
inference from the commands' rules), for every admissible engine. -/
def Obligations.WfHoldsAfterResetAndIsKept : Prop :=
  (∀ c : Config, c.Admissible → (State.resetOf c).wf)
  ∧ ∀ s t : State, s.cfg.Admissible → s.wf → step s = .next t → t.wf

/-- The whole invariant, with the canonical form of the store and no cell with a value outside the live region, is kept by every
step. -/
def Obligations.EveryStepKeepsTheInvariant : Prop := ∀ s t : State, s.Inv → step s = .next t → t.Inv

/-! ### Phases and statuses (10_state.md R22, R34; 60_exceptions.md) -/

/-- The transition table of `PHASE` (R22), complete: each command by its outcome, and hardware reset; the code 3 is never
taken. -/
def Obligations.PhaseTransitionsAreThoseOfTheTable : Prop :=
  (∀ (i : Instr) (s t : State), exec i s = .next t →
    match i with
    | .init .. => (t.lastStatusIs .ok = true → s.phase = .empty ∧ t.phase = .ready)
        ∧ (t.lastStatusIs .ok = false → t.phase = s.phase)
    | .ldcfg _ => (t.lastStatusIs .ok = true → s.phase = .empty ∧ t.phase = .loading)
        ∧ (t.lastStatusIs .ok = false → t.phase = s.phase)
    | .ldent _ => (t.lastStatusIs .ok = true → s.phase = .loading ∧ t.phase = .loading)
        ∧ (t.lastStatusIs .config = true ∨ t.lastStatusIs .cap = true → s.phase = .loading ∧ t.phase = .empty)
        ∧ (t.lastStatusIs .seq = true → t.phase = s.phase)
    | .ldend => (t.lastStatusIs .ok = true → s.phase = .loading ∧ t.phase = .loading)
        ∧ (t.lastStatusIs .config = true ∨ t.lastStatusIs .cap = true → s.phase = .loading ∧ t.phase = .empty)
        ∧ (t.lastStatusIs .seq = true → t.phase = s.phase)
    | .sealLoad => (t.lastStatusIs .ok = true → s.phase = .loading ∧ t.phase = .ready)
        ∧ (t.lastStatusIs .config = true ∨ t.lastStatusIs .cap = true → s.phase = .loading ∧ t.phase = .empty)
        ∧ (t.lastStatusIs .seq = true → t.phase = s.phase)
    | .rst => t.phase = .empty
    | .enc _ => t.phase = s.phase
    | .dec _ => t.phase = s.phase
    | .rdt .. => t.phase = s.phase
    | .stat => t.phase = s.phase)
  ∧ (∀ (s t : State) (cut : Option PortWord) (rest : List HostEvent),
      s.inputs = .reset cut :: rest → step s = .next t → t.phase = .empty)
  ∧ ∀ p : Phase, p.code ≠ 3

/-- "While `PHASE = READY`, no command other than `RST` (and hardware reset) changes `BITSZ`, `ROUNDS`, `WPTR` or any live cell
of the RTR"; construction commands there are refused with `SEQ` and change nothing; `ENC`, `DEC`, `RDT`, `STAT` write no
architectural state in any phase (R34). -/
def Obligations.ReadyCipherIsImmutable : Prop :=
  (∀ (i : Instr) (s t : State), s.phase = .ready → i ≠ .rst → exec i s = .next t → t.arch = s.arch)
  ∧ (∀ (i : Instr) (s : State), s.phase = .ready → i ≠ .rst → readOnly i = false →
      exec i s = .next { s with rsps := s.rsps ++ [0x3] })
  ∧ (∀ (i : Instr) (s t : State), readOnly i = true → exec i s = .next t → t.arch = s.arch)

/-- The phase check (R187): a command the table does not allow in the phase is answered `ST = SEQ` and changes nothing, and a
command it allows is never answered `SEQ`. -/
def Obligations.SeqExactlyWhenPhaseForbids : Prop :=
  ∀ (i : Instr) (s : State),
    (allowed i s.phase = false → exec i s = .next { s with rsps := s.rsps ++ [0x3] })
    ∧ (allowed i s.phase = true → ∀ t, exec i s = .next t → t.lastStatusIs .seq = false)

/-- `CONFIG` is answered exactly in the cases of the table of causes (R188). -/
def Obligations.ConfigExactlyForTheListedCauses : Prop :=
  ∀ (i : Instr) (s t : State), exec i s = .next t → (t.lastStatusIs .config = true ↔ configCause i s)

/-- "`DOMAIN` has one cause: `ENC` or `DEC` in `READY` with `D >= 2^BITSZ`" (R189). -/
def Obligations.DomainHasOneCause : Prop :=
  ∀ (i : Instr) (s t : State), exec i s = .next t →
    (t.lastStatusIs .domain = true ↔
      ∃ d : Data, (i = .enc d ∨ i = .dec d) ∧ s.phase = .ready ∧ 2 ^ s.bitsz.toNat ≤ d.toNat)

/-- `CAP` is answered exactly for a valid configuration, or a further table, beyond `B_MAX` or `R_MAX` (R86), and `INDEX` exactly for
an `RDT` in `READY` outside the live region (R170). -/
def Obligations.CapAndIndexExactlyForTheirCauses : Prop :=
  ∀ (i : Instr) (s t : State), exec i s = .next t →
    (t.lastStatusIs .cap = true ↔ capCause i s)
    ∧ (t.lastStatusIs .index = true ↔
        ∃ (a : BitVec 8) (d : Data), i = .rdt a d ∧ s.phase = .ready
          ∧ (s.rounds.toNat ≤ a.toNat ∨ tlen s.bitsz.toNat ≤ d.toNat))

/-- What `raise ST(code)` leaves (R186): the response has `RES = 0`; nothing else changes, but for `LDENT`, `LDEND`, `SEAL` failing with
`CONFIG` or `CAP`, which leave exactly the effect of `abort_load()`: the state of the engine after reset. Last clause: `ILLEGAL`, which
is raised for words that are no command, changes nothing either. -/
def Obligations.FailedCommandLeavesNoPartialState : Prop :=
  (∀ (i : Instr) (s t : State), exec i s = .next t → t.lastStatusIs .ok = false →
    t.inputs = s.inputs
    ∧ (∃ st : Status, st ≠ .ok ∧ t.lastStatusIs st = true ∧ t.rsps = s.rsps ++ [packResponse st 0])
    ∧ (if loadStep i && (t.lastStatusIs .config || t.lastStatusIs .cap)
        then t.arch = State.resetOf s.cfg else t.arch = s.arch))
  ∧ ∀ (s : State) (w : PortWord) (rest : List HostEvent),
      s.inputs = .command w :: rest → (∀ i : Instr, decode w ≠ .ok i) →
        step s = .next { s with inputs := rest, rsps := s.rsps ++ [packResponse .illegal 0] }

/-- The rest of an aborted stream (R215): in `EMPTY` every `LDENT`, `LDEND`, `SEAL` still sent is answered `SEQ` and has no effect. -/
def Obligations.StreamAfterAnAbortAnswersSeq : Prop :=
  ∀ (is : List Instr) (s : State), s.phase = .empty → (∀ i ∈ is, loadStep i = true) →
    runAll is s = .next { s with rsps := s.rsps ++ List.replicate is.length 0x3 }

/-! ### The key schedule and `INIT` (41_keyschedule.md) -/

/-- The output of `ksg` (R100): `n` tables, each of `tlen(b)` entries, each below `2^(b/2)`, for every generator that meets law
2 of R101; and every generator an engine can be built with meets it: `SM64` by R104, the generators left open by the model's choice to
reduce their draws modulo `2^h` (log entry 2). -/
def Obligations.ScheduleHasItsShapeAndRange : Prop :=
  (∀ (g : Prng) (b n : Nat) (seed : Data), g.InRange →
    (ksg g b seed n).length = n ∧ ∀ t ∈ ksg g b seed n, t.length = tlen b ∧ ∀ v ∈ t, v < 2 ^ (b / 2))
  ∧ ∀ p : PrngChoice, (prngOf p).InRange

/-- The generation order (R102): `T[r][i]` is draw number `r * L + i`, one draw for each entry, dead cells among them; and the
first `m` tables do not depend on how many follow (the last clause is the spec's own inference from the loop order). -/
def Obligations.EntryIsTheDrawOfItsNumber : Prop :=
  ∀ (g : Prng) (b n : Nat) (seed : Data),
    (∀ r < n, ∀ i < tlen b,
      ((ksg g b seed n)[r]?.bind (fun t => t[i]?)) = some (drawNumber g (half b) (r * tlen b + i) (g.init seed)))
    ∧ ∀ m ≤ n, (ksg g b seed n).take m = ksg g b seed m

/-- The closed form under `SM64` (R105, which the spec marks as its own inference; the constants are those of R104, log entry 17). -/
def Obligations.ClosedFormOfTheDefaultSchedule : Prop :=
  ∀ (b n : Nat) (seed : Data), ∀ r < n, ∀ i < tlen b,
    ((ksg sm64 b seed n)[r]?.bind (fun t => t[i]?))
      = some ((mix64 (seed + BitVec.ofNat 64 (r * tlen b + i + 1) * 0x9E3779B97F4A7C15)).toNat >>> (64 - b / 2))

/-- `INIT` (R106), every case in the order of its checks. On success, from `EMPTY` with a valid configuration that fits, it completes:
`READY`, `BITSZ` and `ROUNDS` from the operands, `WPTR` 0, each live cell holding its entry of the schedule, every other cell as
before, and `OK` with result 0; for every admissible engine (R6). -/
def Obligations.InitBuildsTheCipher : Prop :=
  ∀ (s : State) (a b : BitVec 8) (d : Data), s.cfg.Admissible →
    (s.phase ≠ .empty → exec (.init a b d) s = .next { s with rsps := s.rsps ++ [0x3] })
    ∧ (s.phase = .empty → (validBitSize a.toNat && validRounds b.toNat) = false →
        exec (.init a b d) s = .next { s with rsps := s.rsps ++ [0x1] })
    ∧ (s.phase = .empty → validBitSize a.toNat = true → validRounds b.toNat = true →
        (s.cfg.bMax < a.toNat ∨ s.cfg.rMax < b.toNat) →
        exec (.init a b d) s = .next { s with rsps := s.rsps ++ [0x5] })
    ∧ (s.phase = .empty → validBitSize a.toNat = true → validRounds b.toNat = true →
        a.toNat ≤ s.cfg.bMax → b.toNat ≤ s.cfg.rMax →
        ∃ t, exec (.init a b d) s = .next t ∧ t.phase = .ready ∧ t.bitsz = a ∧ t.rounds = b ∧ t.wptr = 0
          ∧ t.cfg = s.cfg ∧ t.inputs = s.inputs ∧ t.rsps = s.rsps ++ [0x0]
          ∧ ∀ r i, (t.readCell r i).map BitVec.toNat =
              if r < b.toNat ∧ i < tlen a.toNat then
                (ksg (prngOf s.cfg.prng) a.toNat d b.toNat)[r]?.bind (fun row => row[i]?)
              else (s.readCell r i).map BitVec.toNat)

/-- Neither the seed nor the generator's state survives a construction (R30, R103): after `RST`, an `INIT` leaves the engine as it would
have left it had the first `INIT` never been issued. -/
def Obligations.ReinitForgetsTheFirstSeed : Prop :=
  ∀ (s : State) (a b a' b' : BitVec 8) (d d' : Data), s.Inv → s.phase = .empty →
    validBitSize a.toNat = true → validRounds b.toNat = true → a.toNat ≤ s.cfg.bMax → b.toNat ≤ s.cfg.rMax →
    validBitSize a'.toNat = true → validRounds b'.toNat = true → a'.toNat ≤ s.cfg.bMax → b'.toNat ≤ s.cfg.rMax →
    ∃ t u, runAll [.init a b d, .rst, .init a' b' d'] s = .next t ∧ exec (.init a' b' d') s = .next u
      ∧ t.phase = .ready ∧ t.arch = u.arch

/-- The generator matters to no command but `INIT` (R101: its laws "are all that any rule outside this file assumes of it"): on an
engine built with another generator every other command does the same. -/
def Obligations.OnlyInitUsesTheGenerator : Prop :=
  ∀ (i : Instr) (s : State) (p : PrngChoice), (∀ a b d, i ≠ .init a b d) →
    exec i { s with cfg := { s.cfg with prng := p } }
      = (match exec i s with
        | .next t => .next { t with cfg := { t.cfg with prng := p } }
        | .fault f => .fault f
        | .refused r => .refused r)

/-! ### Explicit tables (42_table_load.md) -/

/-- `LDCFG` (R120), every case in the order of its checks; on success it completes and touches no cell. -/
def Obligations.LdcfgBeginsALoad : Prop :=
  ∀ (s : State) (a : BitVec 8),
    (s.phase ≠ .empty → exec (.ldcfg a) s = .next { s with rsps := s.rsps ++ [0x3] })
    ∧ (s.phase = .empty → (a.toNat % 2 = 1 ∨ a.toNat < 2) →
        exec (.ldcfg a) s = .next { s with rsps := s.rsps ++ [0x1] })
    ∧ (s.phase = .empty → a.toNat % 2 = 0 → 2 ≤ a.toNat → s.cfg.bMax < a.toNat →
        exec (.ldcfg a) s = .next { s with rsps := s.rsps ++ [0x5] })
    ∧ (s.phase = .empty → a.toNat % 2 = 0 → 2 ≤ a.toNat → a.toNat ≤ s.cfg.bMax →
        exec (.ldcfg a) s
          = .next { s with phase := .loading, bitsz := a, rounds := 0, wptr := 0, rsps := s.rsps ++ [0x0] })

/-- `LDENT` (R121), every case in the order of its checks. On success it completes: the one cell `(ROUNDS, WPTR)` holds the entry, every
other cell reads as before, `WPTR` is one more. -/
def Obligations.LdentAppendsOneEntry : Prop :=
  ∀ (s : State) (d : Data), s.Inv →
    (s.phase ≠ .loading → exec (.ldent d) s = .next { s with rsps := s.rsps ++ [0x3] })
    ∧ (s.phase = .loading → (tlen s.bitsz.toNat ≤ s.wptr.toNat ∨ maxs s.bitsz.toNat ≤ d.toNat) →
        exec (.ldent d) s
          = .next { State.resetOf s.cfg with inputs := s.inputs, rsps := s.rsps ++ [0x1] })
    ∧ (s.phase = .loading → s.wptr.toNat < tlen s.bitsz.toNat → d.toNat < maxs s.bitsz.toNat →
        s.cfg.rMax ≤ s.rounds.toNat →
        exec (.ldent d) s
          = .next { State.resetOf s.cfg with inputs := s.inputs, rsps := s.rsps ++ [0x5] })
    ∧ (s.phase = .loading → s.wptr.toNat < tlen s.bitsz.toNat → d.toNat < maxs s.bitsz.toNat →
        s.rounds.toNat < s.cfg.rMax →
        ∃ t, exec (.ldent d) s = .next t ∧ t.phase = .loading ∧ t.bitsz = s.bitsz ∧ t.rounds = s.rounds
          ∧ t.wptr.toNat = s.wptr.toNat + 1 ∧ t.cfg = s.cfg ∧ t.inputs = s.inputs ∧ t.rsps = s.rsps ++ [0x0]
          ∧ ∀ r i, (t.readCell r i).map BitVec.toNat =
              if r = s.rounds.toNat ∧ i = s.wptr.toNat then some d.toNat
              else (s.readCell r i).map BitVec.toNat)

/-- `LDEND` (R122), every case in the order of its checks; on success it completes, `ROUNDS` is one more and still at most
`R_MAX` (that bound is the spec's own inference from R121). -/
def Obligations.LdendClosesTheTable : Prop :=
  ∀ s : State, s.Inv →
    (s.phase ≠ .loading → exec .ldend s = .next { s with rsps := s.rsps ++ [0x3] })
    ∧ (s.phase = .loading → s.wptr.toNat ≠ tlen s.bitsz.toNat →
        exec .ldend s = .next { State.resetOf s.cfg with inputs := s.inputs, rsps := s.rsps ++ [0x1] })
    ∧ (s.phase = .loading → s.wptr.toNat = tlen s.bitsz.toNat →
        ∃ t, exec .ldend s = .next t ∧ t.rounds.toNat = s.rounds.toNat + 1 ∧ t.rounds.toNat ≤ s.cfg.rMax
          ∧ t = { s with rounds := t.rounds, wptr := 0, rsps := s.rsps ++ [0x0] })

/-- `SEAL` (R123), every case in the order of its checks; on success it completes and writes `PHASE` only. -/
def Obligations.SealFinishesTheLoad : Prop :=
  ∀ s : State,
    (s.phase ≠ .loading → exec .sealLoad s = .next { s with rsps := s.rsps ++ [0x3] })
    ∧ (s.phase = .loading → (s.wptr ≠ 0 ∨ s.rounds.toNat < 1) →
        exec .sealLoad s = .next { State.resetOf s.cfg with inputs := s.inputs, rsps := s.rsps ++ [0x1] })
    ∧ (s.phase = .loading → s.wptr = 0 → 1 ≤ s.rounds.toNat →
        exec .sealLoad s = .next { s with phase := .ready, rsps := s.rsps ++ [0x0] })

/-- The load as a whole, accepted (R124 (a), R87): from `EMPTY`, a driver that issues the expansion of `LOAD b, ts` for valid tables that
fit gets `OK` to every command and leaves the engine `READY` with exactly those tables. -/
def Obligations.LoadOfValidTablesBuildsTheCipher : Prop :=
  ∀ (s : State) (b : BitVec 8) (ts : List (List Data)), s.Inv → s.phase = .empty →
    validTables b.toNat (tablesToNat ts) = true → b.toNat ≤ s.cfg.bMax → ts.length ≤ s.cfg.rMax →
    ∃ t, drive (loadCommands b ts) s = .next t ∧ t.phase = .ready ∧ t.bitsz = b ∧ t.rounds.toNat = ts.length ∧ t.wptr = 0
      ∧ t.rsps = s.rsps ++ List.replicate (loadCommands b ts).length 0x0
      ∧ ∀ r i, (t.readCell r i).map BitVec.toNat = (tablesToNat ts)[r]?.bind (fun row => row[i]?)

/-- The load as a whole, rejected (R124 (b) to (d), R87): when the tables are not valid or do not fit, the driver stops at a response
that is `CAP` when `b` is valid but above `B_MAX` or the first fault in stream order is a table beyond `R_MAX`, and `CONFIG`
otherwise, and the engine is as after reset. -/
def Obligations.RejectedLoadLeavesTheEngineEmpty : Prop :=
  ∀ (s : State) (b : BitVec 8) (ts : List (List Data)), s.Inv → s.phase = .empty →
    ¬ (validTables b.toNat (tablesToNat ts) = true ∧ b.toNat ≤ s.cfg.bMax ∧ ts.length ≤ s.cfg.rMax) →
    ∃ t, drive (loadCommands b ts) s = .next t ∧ t.arch = State.resetOf s.cfg
      ∧ (t.lastStatusIs .cap = true ↔
          validBitSize b.toNat = true
          ∧ (s.cfg.bMax < b.toNat
            ∨ ((∀ row ∈ (tablesToNat ts).take s.cfg.rMax, ValidTable b.toNat row)
              ∧ ∃ v rest, (tablesToNat ts)[s.cfg.rMax]? = some (v :: rest) ∧ v < maxs b.toNat)))
      ∧ (t.lastStatusIs .cap = false → t.lastStatusIs .config = true)

/-- A load leaves "the same state that `INIT` would leave if `ksg` had returned `ts`" (R124): loading the schedule of a seed gives the
engine that the seed gives. -/
def Obligations.LoadedScheduleEqualsInit : Prop :=
  ∀ (s : State) (a b : BitVec 8) (d : Data) (ts : List (List Data)), s.Inv → s.phase = .empty →
    validBitSize a.toNat = true → validRounds b.toNat = true → a.toNat ≤ s.cfg.bMax → b.toNat ≤ s.cfg.rMax →
    tablesToNat ts = ksg (prngOf s.cfg.prng) a.toNat d b.toNat →
    ∃ t u, drive (loadCommands a ts) s = .next t ∧ exec (.init a b d) s = .next u
      ∧ t.phase = .ready ∧ t.arch = u.arch

/-! ### The transforms as functions (43_transform.md, 20_memory.md) -/

/-- The arithmetic of R141 for `M = 2^h`: results in range, the two-case forms of the sum and of the difference, and the inverse laws. -/
def Obligations.ModularStepsAreInverse : Prop :=
  ∀ h a t : Nat, a < 2 ^ h → t < 2 ^ h →
    addm (2 ^ h) a t = (if a + t < 2 ^ h then a + t else a + t - 2 ^ h)
    ∧ subm (2 ^ h) a t = (if t ≤ a then a - t else a + 2 ^ h - t)
    ∧ addm (2 ^ h) a t < 2 ^ h ∧ subm (2 ^ h) a t < 2 ^ h
    ∧ subm (2 ^ h) (addm (2 ^ h) a t) t = a ∧ addm (2 ^ h) (subm (2 ^ h) a t) t = a

/-- Split and join (R140, R145): both halves in `[0, M)`, `v = y * M + x`, `join` equal to `y * M + x` and in `[0, 2^b)`, and the two are
inverse between the domain and the pairs of halves. -/
def Obligations.SplitAndJoinAreInverse : Prop :=
  ∀ b : Nat, EvenSize b →
    (∀ v, (split b v).1 < maxs b ∧ (split b v).2 < maxs b)
    ∧ (∀ v < 2 ^ b, v = (split b v).2 * maxs b + (split b v).1 ∧ join b (split b v) = v)
    ∧ ∀ x < maxs b, ∀ y < maxs b,
        join b (x, y) = y * maxs b + x ∧ join b (x, y) < 2 ^ b ∧ split b (join b (x, y)) = (x, y)

/-- The round is invertible, for any table (R153, marked by the spec as its own inference): the round and its inverse are defined on every pair of halves, stay there, and undo
each other. -/
def Obligations.RoundIsInvertible : Prop :=
  ∀ (b : Nat) (t : List Nat), EvenSize b → ValidTable b t → ∀ x < maxs b, ∀ y < maxs b,
    (∃ x' y', roundFwd b (tableOf t) (x, y) = some (x', y') ∧ x' < maxs b ∧ y' < maxs b
      ∧ roundInv b (tableOf t) (x', y') = some (x, y))
    ∧ (∃ x' y', roundInv b (tableOf t) (x, y) = some (x', y') ∧ x' < maxs b ∧ y' < maxs b
      ∧ roundFwd b (tableOf t) (x', y') = some (x, y))

/-- Both forms of read are inside the table (R44), so no bounds check is needed. -/
def Obligations.BothReadFormsAreInsideTheTable : Prop :=
  ∀ b : Nat, EvenSize b → ∀ z < maxs b,
    z < tlen b ∧ half b ≤ z + xoff b ∧ z + xoff b ≤ maxs b - 1 + half b ∧ z + xoff b < tlen b

/-- Range (R150, marked by the spec as its own inference): both transforms take the domain into the domain. -/
def Obligations.TransformsStayInTheDomain : Prop :=
  ∀ (b : Nat) (ts : List (List Nat)) (v : Nat), EvenSize b → ValidSchedule b ts → v < 2 ^ b →
    (∃ w, encodeFn b (ts.map tableOf) v = some w ∧ w < 2 ^ b)
    ∧ ∃ w, decodeFn b (ts.map tableOf) v = some w ∧ w < 2 ^ b

/-- Round trip (R151, marked by the spec as its own inference; the first half is the source's guarantee), both ways, exactly. -/
def Obligations.DecodingUndoesEncoding : Prop :=
  ∀ (b : Nat) (ts : List (List Nat)) (v : Nat), EvenSize b → ValidSchedule b ts → v < 2 ^ b →
    (encodeFn b (ts.map tableOf) v).bind (decodeFn b (ts.map tableOf)) = some v
    ∧ (decodeFn b (ts.map tableOf) v).bind (encodeFn b (ts.map tableOf)) = some v

/-- Bijection (R152, marked by the spec as its own inference): encoding takes the domain onto itself, one to one, and decoding is its inverse. -/
def Obligations.EncodingIsABijectionOfTheDomain : Prop :=
  ∀ (b : Nat) (ts : List (List Nat)), EvenSize b → ValidSchedule b ts →
    (∀ v < 2 ^ b, ∃ w, w < 2 ^ b ∧ encodeFn b (ts.map tableOf) v = some w)
    ∧ (∀ w < 2 ^ b, ∃! v, v < 2 ^ b ∧ encodeFn b (ts.map tableOf) v = some w)
    ∧ ∀ v < 2 ^ b, ∀ w < 2 ^ b,
        encodeFn b (ts.map tableOf) v = some w ↔ decodeFn b (ts.map tableOf) w = some v

/-- No wrong-key error (R154, marked by the spec as its own inference): what one schedule encoded, another decodes to some value of the domain. -/
def Obligations.WrongKeyDecodesIntoTheDomain : Prop :=
  ∀ (b : Nat) (ts us : List (List Nat)) (v : Nat), EvenSize b → ValidSchedule b ts → ValidSchedule b us → v < 2 ^ b →
    ∃ w, (encodeFn b (ts.map tableOf) v).bind (decodeFn b (us.map tableOf)) = some w ∧ w < 2 ^ b

/-- Only the reachable cells matter (R155, marked by the spec as its own inference): schedules that agree on the indices below `M + h` in every round define the same functions
on the domain. -/
def Obligations.DeadCellsDoNotMatter : Prop :=
  ∀ (b : Nat) (ts us : List (List Nat)), EvenSize b → ValidSchedule b ts → ValidSchedule b us → ts.length = us.length →
    (∀ (r : Nat) (i : Nat), i < maxs b + half b →
      (ts[r]?.bind (fun t => t[i]?)) = (us[r]?.bind (fun t => t[i]?))) →
    ∀ v < 2 ^ b, encodeFn b (ts.map tableOf) v = encodeFn b (us.map tableOf) v
      ∧ decodeFn b (ts.map tableOf) v = decodeFn b (us.map tableOf) v

/-! ### `ENC` and `DEC` on the engine (43_transform.md R148, R149) -/

/-- `ENC` (R148), every case in the order of its checks. In `READY` with a value of the domain it completes with `encode_fn` of the engine's own
tables, in the domain, and writes no state. -/
def Obligations.EncAnswersTheEncodedValue : Prop :=
  ∀ (s : State) (d : Data), s.Inv →
    (s.phase ≠ .ready → exec (.enc d) s = .next { s with rsps := s.rsps ++ [0x3] })
    ∧ (s.phase = .ready → 2 ^ s.bitsz.toNat ≤ d.toNat → exec (.enc d) s = .next { s with rsps := s.rsps ++ [0x2] })
    ∧ (s.phase = .ready → d.toNat < 2 ^ s.bitsz.toNat →
        ∃ v : Data, encodeFn s.bitsz.toNat s.schedule d.toNat = some v.toNat ∧ v.toNat < 2 ^ s.bitsz.toNat
          ∧ exec (.enc d) s = .next { s with rsps := s.rsps ++ [packResponse .ok v] })

/-- `DEC` (R149), every case in the order of its checks. In `READY` with a value of the domain it completes with `decode_fn` of the engine's own
tables, in the domain, and writes no state. -/
def Obligations.DecAnswersTheDecodedValue : Prop :=
  ∀ (s : State) (d : Data), s.Inv →
    (s.phase ≠ .ready → exec (.dec d) s = .next { s with rsps := s.rsps ++ [0x3] })
    ∧ (s.phase = .ready → 2 ^ s.bitsz.toNat ≤ d.toNat → exec (.dec d) s = .next { s with rsps := s.rsps ++ [0x2] })
    ∧ (s.phase = .ready → d.toNat < 2 ^ s.bitsz.toNat →
        ∃ v : Data, decodeFn s.bitsz.toNat s.schedule d.toNat = some v.toNat ∧ v.toNat < 2 ^ s.bitsz.toNat
          ∧ exec (.dec d) s = .next { s with rsps := s.rsps ++ [packResponse .ok v] })

/-- The engine's tables are a valid schedule: in `READY` every round's table, as the transforms read it, is a list of `TLEN` entries below
`MAXS` (R27, R29). -/
def Obligations.ReadyEngineHoldsAValidSchedule : Prop :=
  ∀ s : State, s.Inv → s.phase = .ready →
    ∃ ts : List (List Nat), ts.length = s.rounds.toNat ∧ ValidSchedule s.bitsz.toNat ts
      ∧ ∀ r i, (s.readCell r i).map BitVec.toNat = ts[r]?.bind (fun t => t[i]?)

/-- "`decode(encode(value)) == value`" on the engine: in `READY`, an `ENC` of a value of the domain followed by a `DEC` of its result, both
`OK`, answers the value (R151). -/
def Obligations.DecOfEncAnswersTheValue : Prop :=
  ∀ (s : State) (d : Data), s.Inv → s.phase = .ready → d.toNat < 2 ^ s.bitsz.toNat →
    ∃ c : Data, runAll [.enc d, .dec c] s = .next { s with rsps := s.rsps ++ [packResponse .ok c, packResponse .ok d] }

/-- No two values of the domain get the same answer from `ENC` (R152 on the engine). -/
def Obligations.EncAnswersAreDistinct : Prop :=
  ∀ (s : State) (d e : Data), s.Inv → s.phase = .ready → d.toNat < 2 ^ s.bitsz.toNat → e.toNat < 2 ^ s.bitsz.toNat →
    answerOf (.enc d) s = answerOf (.enc e) s → d = e

/-- An engine whose cells are all 0 is the identity (40_validator.md R90 (d)). -/
def Obligations.AllZeroTablesAreTheIdentity : Prop :=
  ∀ (s : State) (d : Data), s.Inv → s.phase = .ready → d.toNat < 2 ^ s.bitsz.toNat →
    (∀ c ∈ s.rtr, c.2 = 0) →
    exec (.enc d) s = .next { s with rsps := s.rsps ++ [packResponse .ok d] }
    ∧ exec (.dec d) s = .next { s with rsps := s.rsps ++ [packResponse .ok d] }

/-! ### Observation and control (44_status_control.md) -/

/-- `RDT` (R170), every case in the order of its checks. In `READY` inside the live region it completes with the cell's value and writes
no state. -/
def Obligations.RdtAnswersTheCell : Prop :=
  ∀ (s : State) (a : BitVec 8) (d : Data), s.Inv →
    (s.phase ≠ .ready → exec (.rdt a d) s = .next { s with rsps := s.rsps ++ [0x3] })
    ∧ (s.phase = .ready → (s.rounds.toNat ≤ a.toNat ∨ tlen s.bitsz.toNat ≤ d.toNat) →
        exec (.rdt a d) s = .next { s with rsps := s.rsps ++ [0x6] })
    ∧ (s.phase = .ready → a.toNat < s.rounds.toNat → d.toNat < tlen s.bitsz.toNat →
        ∃ v : CellWord, s.readCell a.toNat d.toNat = some v ∧ v.toNat < maxs s.bitsz.toNat
          ∧ exec (.rdt a d) s = .next { s with rsps := s.rsps ++ [packResponse .ok (v.setWidth 64)] })

/-- Export and re-import (R170, R124): the values that `RDT` answers over the live region of a `READY` engine, loaded into an engine after
reset, reproduce the engine exactly. -/
def Obligations.ExportAndReimportReproduceTheCipher : Prop :=
  ∀ s : State, s.Inv → s.phase = .ready →
    ∃ ts : List (List Data), ts.length = s.rounds.toNat
      ∧ (∀ r < s.rounds.toNat, ∀ i < tlen s.bitsz.toNat,
          answerOf (.rdt (BitVec.ofNat 8 r) (BitVec.ofNat 64 i)) s
            = (ts[r]?.bind (fun t => t[i]?)).map (packResponse .ok))
      ∧ (∀ t ∈ ts, t.length = tlen s.bitsz.toNat)
      ∧ ∃ t, drive (loadCommands s.bitsz ts) (State.resetOf s.cfg) = .next t ∧ t.lastStatusIs .ok = true
        ∧ t.arch = s.arch

/-- `STAT` (R171) completes in every phase and answers the registers in the layout of its table, writing no state. -/
def Obligations.StatAnswersTheRegisters : Prop :=
  ∀ s : State, ∃ res : Data,
    exec .stat s = .next { s with rsps := s.rsps ++ [packResponse .ok res] }
    ∧ res.toNat = s.phase.code.toNat + s.bitsz.toNat * 2 ^ 8 + s.rounds.toNat * 2 ^ 16 + s.wptr.toNat * 2 ^ 24
    ∧ res.extractLsb' 0 2 = s.phase.code ∧ res.extractLsb' 2 6 = 0 ∧ res.extractLsb' 8 8 = s.bitsz
    ∧ res.extractLsb' 16 8 = s.rounds ∧ res.extractLsb' 24 40 = s.wptr.setWidth 40

/-- `RST` (R173) completes in every phase, and "the architectural state after `RST` equals the state after hardware reset". -/
def Obligations.RstDestroysTheCipher : Prop :=
  ∀ (s : State) (cut : Option PortWord) (rest : List HostEvent),
    exec .rst s = .next { State.resetOf s.cfg with inputs := s.inputs, rsps := s.rsps ++ [0x0] }
    ∧ (s.inputs = .reset cut :: rest → ∃ t, step s = .next t ∧ t.arch = State.resetOf s.cfg)

/-- Sharing a `READY` engine (60_exceptions.md R200, 20_memory.md R47): any sequence of `ENC`, `DEC`, `RDT`, `STAT`, from however many hosts,
leaves the state and gives each command the response it would get alone. -/
def Obligations.ReadOnlyCommandsDoNotInterfere : Prop :=
  ∀ (is : List Instr) (s : State), s.Inv → s.phase = .ready → (∀ i ∈ is, readOnly i = true) →
    ∃ rs : List PortWord, is.map (fun i => answerOf i s) = rs.map some
      ∧ runAll is s = .next { s with rsps := s.rsps ++ rs }
end

