-- ==== Sys2Proof/Laws/State.lean ====
section
/-! SUPPORT. Laws/State.lean: one lemma per field per update of the state, all by rfl, so that no proof unfolds an update. -/

namespace Sys2Proof.Machine

/-! ### `emit` -/

@[simp] theorem State.emit_cfg (s : State) (st : Status) (res : Data) :
    (s.emit st res).cfg = s.cfg := rfl
@[simp] theorem State.emit_phase (s : State) (st : Status) (res : Data) :
    (s.emit st res).phase = s.phase := rfl
@[simp] theorem State.emit_bitsz (s : State) (st : Status) (res : Data) :
    (s.emit st res).bitsz = s.bitsz := rfl
@[simp] theorem State.emit_rounds (s : State) (st : Status) (res : Data) :
    (s.emit st res).rounds = s.rounds := rfl
@[simp] theorem State.emit_wptr (s : State) (st : Status) (res : Data) :
    (s.emit st res).wptr = s.wptr := rfl
@[simp] theorem State.emit_rtr (s : State) (st : Status) (res : Data) :
    (s.emit st res).rtr = s.rtr := rfl
@[simp] theorem State.emit_inputs (s : State) (st : Status) (res : Data) :
    (s.emit st res).inputs = s.inputs := rfl
@[simp] theorem State.emit_rsps (s : State) (st : Status) (res : Data) :
    (s.emit st res).rsps = s.rsps ++ [packResponse st res] := rfl

/-! ### `hardReset` -/

@[simp] theorem State.hardReset_cfg (s : State) : s.hardReset.cfg = s.cfg := rfl
@[simp] theorem State.hardReset_phase (s : State) : s.hardReset.phase = .empty := rfl
@[simp] theorem State.hardReset_bitsz (s : State) : s.hardReset.bitsz = 0 := rfl
@[simp] theorem State.hardReset_rounds (s : State) : s.hardReset.rounds = 0 := rfl
@[simp] theorem State.hardReset_wptr (s : State) : s.hardReset.wptr = 0 := rfl
@[simp] theorem State.hardReset_rtr (s : State) : s.hardReset.rtr = [] := rfl
@[simp] theorem State.hardReset_inputs (s : State) : s.hardReset.inputs = s.inputs := rfl
@[simp] theorem State.hardReset_rsps (s : State) : s.hardReset.rsps = s.rsps := rfl

/-! ### `abortLoad` -/

@[simp] theorem State.abortLoad_cfg (s : State) : s.abortLoad.cfg = s.cfg := rfl
@[simp] theorem State.abortLoad_phase (s : State) : s.abortLoad.phase = .empty := rfl
@[simp] theorem State.abortLoad_bitsz (s : State) : s.abortLoad.bitsz = 0 := rfl
@[simp] theorem State.abortLoad_rounds (s : State) : s.abortLoad.rounds = 0 := rfl
@[simp] theorem State.abortLoad_wptr (s : State) : s.abortLoad.wptr = 0 := rfl
@[simp] theorem State.abortLoad_rtr (s : State) : s.abortLoad.rtr = [] := rfl
@[simp] theorem State.abortLoad_inputs (s : State) : s.abortLoad.inputs = s.inputs := rfl
@[simp] theorem State.abortLoad_rsps (s : State) : s.abortLoad.rsps = s.rsps := rfl

/-! ### `resetOf` -/

@[simp] theorem State.resetOf_cfg (c : Config) : (State.resetOf c).cfg = c := rfl
@[simp] theorem State.resetOf_phase (c : Config) : (State.resetOf c).phase = .empty := rfl
@[simp] theorem State.resetOf_bitsz (c : Config) : (State.resetOf c).bitsz = 0 := rfl
@[simp] theorem State.resetOf_rounds (c : Config) : (State.resetOf c).rounds = 0 := rfl
@[simp] theorem State.resetOf_wptr (c : Config) : (State.resetOf c).wptr = 0 := rfl
@[simp] theorem State.resetOf_rtr (c : Config) : (State.resetOf c).rtr = [] := rfl
@[simp] theorem State.resetOf_inputs (c : Config) : (State.resetOf c).inputs = [] := rfl
@[simp] theorem State.resetOf_rsps (c : Config) : (State.resetOf c).rsps = [] := rfl

/-! ### `arch` -/

@[simp] theorem State.arch_cfg (s : State) : s.arch.cfg = s.cfg := rfl
@[simp] theorem State.arch_phase (s : State) : s.arch.phase = s.phase := rfl
@[simp] theorem State.arch_bitsz (s : State) : s.arch.bitsz = s.bitsz := rfl
@[simp] theorem State.arch_rounds (s : State) : s.arch.rounds = s.rounds := rfl
@[simp] theorem State.arch_wptr (s : State) : s.arch.wptr = s.wptr := rfl
@[simp] theorem State.arch_rtr (s : State) : s.arch.rtr = s.rtr := rfl
@[simp] theorem State.arch_inputs (s : State) : s.arch.inputs = [] := rfl
@[simp] theorem State.arch_rsps (s : State) : s.arch.rsps = [] := rfl

/-! ### Responses as next states -/

@[simp] theorem State.respond_eq (s : State) (res : Data) : s.respond res = .next (s.emit .ok res) := rfl

@[simp] theorem State.raise_eq (s : State) (st : Status) : s.raise st = .next (s.emit st 0) := rfl

/-- Emitting a response changes no architectural state. -/
@[simp] theorem State.arch_emit (s : State) (st : Status) (res : Data) : (s.emit st res).arch = s.arch := rfl

/-- `abort_load()` and hardware reset leave the engine as after reset (10_state.md R32, R33). -/
@[simp] theorem State.arch_abortLoad (s : State) : s.abortLoad.arch = State.resetOf s.cfg := rfl

@[simp] theorem State.arch_hardReset (s : State) : s.hardReset.arch = State.resetOf s.cfg := rfl

/-- The status of the last response is the one just emitted. -/
theorem State.lastStatusIs_emit (s : State) (st st' : Status) (res : Data) :
    (s.emit st res).lastStatusIs st' = (stOf (packResponse st res) == st'.code) := by
  simp [State.lastStatusIs]

/-- Two states with the same architectural state and the same ports are equal. -/
theorem State.ext_arch (s t : State) (ha : s.arch = t.arch) (hi : s.inputs = t.inputs) (hr : s.rsps = t.rsps) :
    s = t := by
  cases s; cases t
  simp only [State.arch, State.mk.injEq] at ha
  simp_all

end Sys2Proof.Machine
end

