-- ==== Sys2Proof/Laws/Memory.lean ====
section
/-! SUPPORT. Laws/Memory.lean: the laws of the store: read after write, and the canonical form, which every operation keeps
and which makes equal contents equal data. -/

namespace Sys2Proof.Machine

/-! ### The order of addresses -/

theorem addrLt_iff (p q : CellAddr) : addrLt p q = true ↔ p.1 < q.1 ∨ (p.1 = q.1 ∧ p.2 < q.2) := by
  simp [addrLt]

theorem addrLt_irrefl (p : CellAddr) : addrLt p p = false := by
  simp [addrLt]

theorem addrLt_trans {p q r : CellAddr} (h : addrLt p q = true) (h' : addrLt q r = true) : addrLt p r = true := by
  rw [addrLt_iff] at *; omega

theorem ne_of_addrLt {p q : CellAddr} (h : addrLt p q = true) : p ≠ q := by
  rintro rfl; simp [addrLt_irrefl] at h

theorem addrLt_of_not {p q : CellAddr} (h : ¬ addrLt p q = true) (hne : p ≠ q) : addrLt q p = true := by
  rw [addrLt_iff] at *
  have : ¬ (p.1 = q.1 ∧ p.2 = q.2) := fun e => hne (Prod.ext e.1 e.2)
  omega

/-! ### Read after write -/

@[simp] theorem Memory.read_nil (a : CellAddr) : Memory.read [] a = none := rfl

theorem Memory.read_write (m : Memory) (a b : CellAddr) (v : CellWord) :
    (m.write a v).read b = if b = a then some v else m.read b := by
  induction m with
  | nil => simp [Memory.write, Memory.read]
  | cons c m ih =>
    obtain ⟨p, u⟩ := c
    simp only [Memory.write]
    split
    · simp [Memory.read]
    · split
      · next h => subst h; simp only [Memory.read]; split <;> rfl
      · next hne =>
        simp only [Memory.read, ih]
        by_cases hb : b = p
        · subst hb; simp [Ne.symm hne]
        · simp [hb]

theorem Memory.read_write_same (m : Memory) (a : CellAddr) (v : CellWord) : (m.write a v).read a = some v := by
  simp [Memory.read_write]

theorem Memory.read_write_other (m : Memory) {a b : CellAddr} (v : CellWord) (h : b ≠ a) :
    (m.write a v).read b = m.read b := by
  simp [Memory.read_write, h]

/-! ### The canonical form -/

theorem Memory.wf_cons (c : CellAddr × CellWord) (m : Memory) :
    Memory.wf (c :: m) = true ↔ (∀ d ∈ m, addrLt c.1 d.1 = true) ∧ m.wf = true := by
  induction m generalizing c with
  | nil => simp [Memory.wf]
  | cons d m ih =>
    simp only [Memory.wf, Bool.and_eq_true, ih d, List.forall_mem_cons]
    constructor
    · rintro ⟨h, hd, hm⟩
      exact ⟨⟨h, fun e he => addrLt_trans h (hd e he)⟩, hd, hm⟩
    · rintro ⟨⟨h, _⟩, hd, hm⟩
      exact ⟨h, hd, hm⟩

theorem Memory.mem_write {m : Memory} {a : CellAddr} {v : CellWord} {c : CellAddr × CellWord}
    (h : c ∈ m.write a v) : c = (a, v) ∨ c ∈ m := by
  induction m with
  | nil => simpa [Memory.write] using h
  | cons d m ih =>
    obtain ⟨p, u⟩ := d
    simp only [Memory.write] at h
    split at h
    · simpa using h
    · split at h
      · simp only [List.mem_cons] at h ⊢; tauto
      · simp only [List.mem_cons] at h ⊢
        rcases h with h | h
        · tauto
        · rcases ih h with h | h <;> tauto

theorem Memory.wf_write {m : Memory} (h : m.wf = true) (a : CellAddr) (v : CellWord) : (m.write a v).wf = true := by
  induction m with
  | nil => rfl
  | cons d m ih =>
    obtain ⟨p, u⟩ := d
    obtain ⟨hp, hm⟩ := (Memory.wf_cons _ _).1 h
    simp only [Memory.write]
    split
    · next hlt =>
      refine (Memory.wf_cons _ _).2 ⟨?_, h⟩
      rintro e he
      rcases List.mem_cons.1 he with rfl | he
      · exact hlt
      · exact addrLt_trans hlt (hp e he)
    · next hlt =>
      split
      · next he => subst he; exact (Memory.wf_cons _ _).2 ⟨hp, hm⟩
      · next hne =>
        refine (Memory.wf_cons _ _).2 ⟨fun e he => ?_, ih hm⟩
        rcases Memory.mem_write he with rfl | he
        · exact addrLt_of_not hlt hne
        · exact hp e he

theorem Memory.wf_writeAll {m : Memory} (h : m.wf = true) (cells : List (CellAddr × CellWord)) :
    (m.writeAll cells).wf = true := by
  induction cells with
  | nil => exact h
  | cons c cells ih => exact Memory.wf_write ih c.1 c.2

theorem Memory.mem_writeAll {m : Memory} {cells : List (CellAddr × CellWord)} {c : CellAddr × CellWord}
    (h : c ∈ m.writeAll cells) : c ∈ cells ∨ c ∈ m := by
  induction cells with
  | nil => exact .inr h
  | cons d cells ih =>
    rcases Memory.mem_write h with h | h
    · exact .inl (by simp [h])
    · rcases ih h with h | h
      · exact .inl (List.mem_cons_of_mem _ h)
      · exact .inr h

/-- A read of many writes: the first entry for the address, else what was there. -/
theorem Memory.read_writeAll (m : Memory) (cells : List (CellAddr × CellWord)) (a : CellAddr) :
    (m.writeAll cells).read a = (Memory.read cells a).or (m.read a) := by
  induction cells with
  | nil => rfl
  | cons c cells ih =>
    have : m.writeAll (c :: cells) = (m.writeAll cells).write c.1 c.2 := rfl
    rw [this, Memory.read_write, ih]
    obtain ⟨p, u⟩ := c
    simp only [Memory.read]
    split <;> simp

theorem Memory.read_eq_none {m : Memory} {a : CellAddr} (h : ∀ c ∈ m, c.1 ≠ a) : m.read a = none := by
  induction m with
  | nil => rfl
  | cons c m ih =>
    obtain ⟨p, u⟩ := c
    have hp : a ≠ p := fun e => h _ (List.mem_cons_self ..) e.symm
    simp only [Memory.read, if_neg hp]
    exact ih fun c hc => h c (List.mem_cons_of_mem _ hc)

theorem Memory.mem_of_read {m : Memory} {a : CellAddr} {v : CellWord} (h : m.read a = some v) : (a, v) ∈ m := by
  induction m with
  | nil => simp at h
  | cons c m ih =>
    obtain ⟨p, u⟩ := c
    simp only [Memory.read] at h
    split at h
    · simp_all
    · exact List.mem_cons_of_mem _ (ih h)

theorem Memory.read_of_mem {m : Memory} (hw : m.wf = true) {c : CellAddr × CellWord} (h : c ∈ m) :
    m.read c.1 = some c.2 := by
  induction m with
  | nil => simp at h
  | cons d m ih =>
    obtain ⟨hd, hm⟩ := (Memory.wf_cons _ _).1 hw
    rcases List.mem_cons.1 h with rfl | h'
    · simp [Memory.read]
    · obtain ⟨p, u⟩ := d
      have : c.1 ≠ p := (ne_of_addrLt (hd c h')).symm
      simp only [Memory.read, if_neg this]
      exact ih hm h'

/-- Equal contents in canonical form are equal data. -/
theorem Memory.ext_of_wf {m n : Memory} (hm : m.wf = true) (hn : n.wf = true) (h : ∀ a, m.read a = n.read a) :
    m = n := by
  induction m generalizing n with
  | nil =>
    cases n with
    | nil => rfl
    | cons d n => have := h d.1; simp [Memory.read] at this
  | cons c m ih =>
    obtain ⟨hc, hm'⟩ := (Memory.wf_cons _ _).1 hm
    cases n with
    | nil => have := h c.1; simp [Memory.read] at this
    | cons d n =>
      obtain ⟨hd, hn'⟩ := (Memory.wf_cons _ _).1 hn
      have key : c.1 = d.1 := by
        by_contra hne
        by_cases hlt : addrLt c.1 d.1 = true
        · have h1 := Memory.read_of_mem hm (List.mem_cons_self (a := c) (l := m))
          rw [h] at h1
          rcases List.mem_cons.1 (Memory.mem_of_read h1) with e | e
          · exact hne (by rw [← e])
          · have := addrLt_trans hlt (hd _ e); simp [addrLt_irrefl] at this
        · have hgt := addrLt_of_not hlt hne
          have h1 := Memory.read_of_mem hn (List.mem_cons_self (a := d) (l := n))
          rw [← h] at h1
          rcases List.mem_cons.1 (Memory.mem_of_read h1) with e | e
          · exact hne (by rw [← e])
          · have := addrLt_trans hgt (hc _ e); simp [addrLt_irrefl] at this
      obtain ⟨p, u⟩ := c
      obtain ⟨q, w⟩ := d
      obtain rfl : p = q := key
      have hv : u = w := by simpa [Memory.read] using h p
      subst hv
      congr 1
      refine ih hm' hn' fun a => ?_
      by_cases ha : a = p
      · subst ha
        rw [Memory.read_eq_none (fun c hc' => (ne_of_addrLt (hc c hc')).symm),
          Memory.read_eq_none (fun c hc' => (ne_of_addrLt (hd c hc')).symm)]
      · simpa [Memory.read, ha] using h a

end Sys2Proof.Machine
end

