-- ==== Sys2Proof/Laws/Ops.lean ====
section
/-! SUPPORT. Laws/Ops.lean: what each shared operation can do, said once: response words, cells, the bulk store of `INIT`. -/

namespace Sys2Proof.Machine

/-! ### Response words (30_encoding.md R66) -/

theorem packResponse_toNat (st : Status) (res : Data) :
    (packResponse st res).toNat = st.code.toNat + res.toNat * 2 ^ 32 := by
  have h1 := st.code.isLt
  have h2 := res.isLt
  simp only [packResponse, BitVec.toNat_ofNat]
  exact Nat.mod_eq_of_lt (by omega)

/-- The three fields of `low + high * 2^32` with `low` of 4 bits. -/
theorem responseFields_nat {a r : Nat} (ha : a < 2 ^ 4) (hr : r < 2 ^ 64) :
    (a + r * 2 ^ 32) >>> 0 % 2 ^ 4 = a ∧ (a + r * 2 ^ 32) >>> 4 % 2 ^ 28 = 0 ∧ (a + r * 2 ^ 32) >>> 32 % 2 ^ 64 = r := by
  refine ⟨?_, ?_, ?_⟩
  · rw [Nat.shiftRight_zero]; omega
  · rw [Nat.shiftRight_eq_div_pow]; omega
  · rw [Nat.shiftRight_eq_div_pow]; omega

@[simp] theorem stOf_packResponse (st : Status) (res : Data) : stOf (packResponse st res) = st.code := by
  apply BitVec.eq_of_toNat_eq
  rw [stOf, BitVec.extractLsb'_toNat, packResponse_toNat]
  exact (responseFields_nat st.code.isLt res.isLt).1

@[simp] theorem middleOf_packResponse (st : Status) (res : Data) : middleOf (packResponse st res) = 0 := by
  apply BitVec.eq_of_toNat_eq
  rw [middleOf, BitVec.extractLsb'_toNat, packResponse_toNat]
  exact (responseFields_nat st.code.isLt res.isLt).2.1

@[simp] theorem resOf_packResponse (st : Status) (res : Data) : resOf (packResponse st res) = res := by
  apply BitVec.eq_of_toNat_eq
  rw [resOf, BitVec.extractLsb'_toNat, packResponse_toNat]
  exact (responseFields_nat st.code.isLt res.isLt).2.2

theorem Status.code_inj {a b : Status} : a.code = b.code ↔ a = b := by
  cases a <;> cases b <;> decide

theorem Status.code_le (st : Status) : st.code.toNat ≤ 6 := by
  cases st <;> decide

/-- A response word tells its status and its result. -/
theorem packResponse_inj {st st' : Status} {res res' : Data} (h : packResponse st res = packResponse st' res') :
    st = st' ∧ res = res' := by
  have h1 := congrArg stOf h
  have h2 := congrArg resOf h
  simp only [stOf_packResponse, resOf_packResponse] at h1 h2
  exact ⟨Status.code_inj.1 h1, h2⟩

/-- The status of a state's last response, once a response has been emitted. -/
@[simp] theorem State.lastStatusIs_emit_eq (s : State) (st st' : Status) (res : Data) :
    (s.emit st res).lastStatusIs st' = decide (st = st') := by
  rw [State.lastStatusIs_emit, stOf_packResponse]
  by_cases h : st = st'
  · simp [h]
  · simp [h, Status.code_inj]

/-! ### Cells (20_memory.md R40, R41) -/

theorem cellExists_iff (c : Config) (r i : Nat) : cellExists c (r, i) = true ↔ r < c.rMax ∧ i < lMax c := by
  simp [cellExists]

theorem mMax_le_of_admissible {c : Config} (h : c.Admissible) : mMax c ≤ 2 ^ 32 := by
  obtain ⟨_, _, h64, _, _⟩ := h
  exact Nat.pow_le_pow_right (by decide) (by unfold hMax; omega)

/-- Reading depends on the parameters and the store alone. -/
theorem State.readCell_congr {s t : State} (hc : s.cfg = t.cfg) (hr : s.rtr = t.rtr) (r i : Nat) :
    s.readCell r i = t.readCell r i := by
  simp [State.readCell, hc, hr]

@[simp] theorem State.readCell_emit (s : State) (st : Status) (res : Data) (r i : Nat) :
    (s.emit st res).readCell r i = s.readCell r i := rfl

/-- What a store of one cell does, when it has a place. -/
theorem State.writeCell_eq_some {s t : State} {r i v : Nat} (h : s.writeCell r i v = some t) :
    cellExists s.cfg (r, i) = true ∧ v < mMax s.cfg
      ∧ t = { s with rtr := s.rtr.write (r, i) (BitVec.ofNat 32 v) } := by
  simp only [State.writeCell] at h
  split at h
  · next hc =>
    simp only [Bool.and_eq_true, cellHolds, decide_eq_true_eq] at hc
    exact ⟨hc.1, hc.2, (Option.some.inj h).symm⟩
  · simp at h

theorem State.writeCell_of_room (s : State) {r i v : Nat} (hr : r < s.cfg.rMax) (hi : i < lMax s.cfg)
    (hv : v < mMax s.cfg) :
    s.writeCell r i v = some { s with rtr := s.rtr.write (r, i) (BitVec.ofNat 32 v) } := by
  simp [State.writeCell, cellExists, cellHolds, hr, hi, hv]

/-- Reading after a store of one cell: the cell stored to, and every other cell as before. -/
theorem State.readCell_writeCell {s t : State} {r i v : Nat} (hs : s.cfg.Admissible)
    (h : s.writeCell r i v = some t) (r' i' : Nat) :
    (t.readCell r' i').map BitVec.toNat
      = if r' = r ∧ i' = i then some v else (s.readCell r' i').map BitVec.toNat := by
  obtain ⟨he, hv, rfl⟩ := State.writeCell_eq_some h
  have hv' : v < 2 ^ 32 := lt_of_lt_of_le hv (mMax_le_of_admissible hs)
  simp only [State.readCell, Memory.read_write, Prod.mk.injEq]
  by_cases hk : r' = r ∧ i' = i
  · obtain ⟨rfl, rfl⟩ := hk
    simp only [he, if_true, and_self, Option.map_some, BitVec.toNat_ofNat]
    rw [Nat.mod_eq_of_lt hv']
  · simp only [if_neg hk]

/-! ### The bulk store (41_keyschedule.md R106) -/

theorem mem_rowCells {r k : Nat} {t : List Nat} {c : CellAddr × Nat} (h : c ∈ rowCells r k t) :
    c.1.1 = r ∧ k ≤ c.1.2 ∧ c.1.2 < k + t.length ∧ c.2 ∈ t := by
  induction t generalizing k with
  | nil => simp [rowCells] at h
  | cons v t ih =>
    simp only [rowCells, List.mem_cons] at h
    rcases h with rfl | h
    · simp
    · obtain ⟨h1, h2, h3, h4⟩ := ih h
      simp only [List.length_cons, List.mem_cons]
      exact ⟨h1, by omega, by omega, .inr h4⟩

theorem mem_tableCells {k : Nat} {ts : List (List Nat)} {c : CellAddr × Nat} (h : c ∈ tableCells k ts) :
    ∃ t ∈ ts, k ≤ c.1.1 ∧ c.1.1 < k + ts.length ∧ c.1.2 < t.length ∧ c.2 ∈ t := by
  induction ts generalizing k with
  | nil => simp [tableCells] at h
  | cons t ts ih =>
    simp only [tableCells, List.mem_append] at h
    rcases h with h | h
    · obtain ⟨h1, h2, h3, h4⟩ := mem_rowCells h
      exact ⟨t, by simp, by omega, by simp; omega, by omega, h4⟩
    · obtain ⟨u, hu, h1, h2, h3, h4⟩ := ih h
      exact ⟨u, by simp [hu], by omega, by simp; omega, h3, h4⟩

/-- The entries of tables as cells of the store. -/
def asCells (l : List (CellAddr × Nat)) : List (CellAddr × CellWord) := l.map (fun c => (c.1, BitVec.ofNat 32 c.2))

theorem read_rowCells (r k : Nat) (t : List Nat) (r' i : Nat) :
    Memory.read (asCells (rowCells r k t)) (r', i)
      = if r' = r ∧ k ≤ i then (t[i - k]?).map (BitVec.ofNat 32) else none := by
  induction t generalizing k with
  | nil => simp [rowCells, asCells]
  | cons v t ih =>
    simp only [asCells] at ih
    simp only [rowCells, asCells, List.map_cons, Memory.read, Prod.mk.injEq, ih]
    by_cases hr : r' = r
    · by_cases hi : i = k
      · simp [hr, hi]
      · by_cases hk : k ≤ i
        · have h1 : k + 1 ≤ i := by omega
          have h2 : i - k = (i - (k + 1)) + 1 := by omega
          simp [hr, hi, hk, h1, h2]
        · have h1 : ¬ k + 1 ≤ i := by omega
          simp [hr, hi, hk, h1]
    · simp [hr]

theorem Memory.read_append (m n : Memory) (a : CellAddr) : Memory.read (m ++ n) a = (m.read a).or (n.read a) := by
  induction m with
  | nil => rfl
  | cons c m ih =>
    obtain ⟨p, u⟩ := c
    simp only [List.cons_append, Memory.read, ih]
    split <;> simp

theorem read_tableCells (k : Nat) (ts : List (List Nat)) (r i : Nat) :
    Memory.read (asCells (tableCells k ts)) (r, i)
      = if k ≤ r then ((ts[r - k]?).bind (fun t => t[i]?)).map (BitVec.ofNat 32) else none := by
  induction ts generalizing k with
  | nil => simp [tableCells, asCells]
  | cons t ts ih =>
    have hsplit : asCells (tableCells k (t :: ts)) = asCells (rowCells k 0 t) ++ asCells (tableCells (k + 1) ts) := by
      simp [asCells, tableCells]
    rw [hsplit, Memory.read_append, read_rowCells, ih]
    by_cases hr : r = k
    · subst hr; simp
    · by_cases hk : k ≤ r
      · have h1 : k + 1 ≤ r := by omega
        have h2 : r - k = (r - (k + 1)) + 1 := by omega
        simp [hr, hk, h1, h2]
      · have h1 : ¬ k + 1 ≤ r := by omega
        simp [hr, hk, h1]

/-- What the bulk store does, when every entry has a place. -/
theorem State.writeTables_eq_some {s t : State} {ts : List (List Nat)} (h : s.writeTables ts = some t) :
    (∀ c ∈ tableCells 0 ts, cellExists s.cfg c.1 = true ∧ c.2 < mMax s.cfg)
      ∧ t = { s with rtr := s.rtr.writeAll (asCells (tableCells 0 ts)) } := by
  simp only [State.writeTables] at h
  split at h
  · next hc =>
    simp only [List.all_eq_true, Bool.and_eq_true, cellHolds, decide_eq_true_eq] at hc
    exact ⟨hc, (Option.some.inj h).symm⟩
  · simp at h

theorem State.writeTables_of_room (s : State) (ts : List (List Nat))
    (h : ∀ c ∈ tableCells 0 ts, cellExists s.cfg c.1 = true ∧ c.2 < mMax s.cfg) :
    s.writeTables ts = some { s with rtr := s.rtr.writeAll (asCells (tableCells 0 ts)) } := by
  simp only [State.writeTables]
  rw [if_pos]
  · rfl
  · simpa only [List.all_eq_true, Bool.and_eq_true, cellHolds, decide_eq_true_eq] using h

end Sys2Proof.Machine
end

