-- ==== Sys2Proof/Laws/Commands.lean ====
section
/-! SUPPORT. Laws/Commands.lean: for each command, everything it can do when it answers a next state, said once; the proofs
about all commands cite these and unfold no meaning. -/

namespace Sys2Proof.Machine

/-! ### The predicates as propositions (40_validator.md) -/

@[simp] theorem validBitSize_iff (b : Nat) : validBitSize b = true ↔ b % 2 = 0 ∧ 2 ≤ b := by
  simp [validBitSize]

@[simp] theorem validBitSize_false_iff (b : Nat) : validBitSize b = false ↔ ¬ (b % 2 = 0 ∧ 2 ≤ b) := by
  rw [← validBitSize_iff, Bool.not_eq_true]

@[simp] theorem validRounds_iff (n : Nat) : validRounds n = true ↔ 1 ≤ n := by
  simp [validRounds]

@[simp] theorem validRounds_false_iff (n : Nat) : validRounds n = false ↔ ¬ (1 ≤ n) := by
  rw [← validRounds_iff, Bool.not_eq_true]

@[simp] theorem validEntry_iff (b v : Nat) : validEntry b v = true ↔ v < maxs b := by
  simp [validEntry]

@[simp] theorem validEntry_false_iff (b v : Nat) : validEntry b v = false ↔ ¬ (v < maxs b) := by
  rw [← validEntry_iff, Bool.not_eq_true]

@[simp] theorem validTableLen_iff (b n : Nat) : validTableLen b n = true ↔ n = tlen b := by
  simp [validTableLen]

@[simp] theorem validTableLen_false_iff (b n : Nat) : validTableLen b n = false ↔ ¬ (n = tlen b) := by
  rw [← validTableLen_iff, Bool.not_eq_true]

@[simp] theorem roomInTable_iff (b n : Nat) : roomInTable b n = true ↔ n < tlen b := by
  simp [roomInTable]

@[simp] theorem roomInTable_false_iff (b n : Nat) : roomInTable b n = false ↔ ¬ (n < tlen b) := by
  rw [← roomInTable_iff, Bool.not_eq_true]

@[simp] theorem inDomain_iff (b v : Nat) : inDomain b v = true ↔ v < 2 ^ b := by
  unfold inDomain dom; exact decide_eq_true_iff

@[simp] theorem inDomain_false_iff (b v : Nat) : inDomain b v = false ↔ ¬ (v < 2 ^ b) := by
  rw [← inDomain_iff, Bool.not_eq_true]

@[simp] theorem fitsBits_iff (c : Config) (b : Nat) : fitsBits c b = true ↔ b ≤ c.bMax := by
  simp [fitsBits]

@[simp] theorem fitsBits_false_iff (c : Config) (b : Nat) : fitsBits c b = false ↔ ¬ (b ≤ c.bMax) := by
  rw [← fitsBits_iff, Bool.not_eq_true]

@[simp] theorem fitsRounds_iff (c : Config) (n : Nat) : fitsRounds c n = true ↔ n ≤ c.rMax := by
  simp [fitsRounds]

@[simp] theorem fitsRounds_false_iff (c : Config) (n : Nat) : fitsRounds c n = false ↔ ¬ (n ≤ c.rMax) := by
  rw [← fitsRounds_iff, Bool.not_eq_true]

@[simp] theorem roomForTable_iff (c : Config) (n : Nat) : roomForTable c n = true ↔ n < c.rMax := by
  simp [roomForTable]

@[simp] theorem roomForTable_false_iff (c : Config) (n : Nat) : roomForTable c n = false ↔ ¬ (n < c.rMax) := by
  rw [← roomForTable_iff, Bool.not_eq_true]

/-! ### What each command can do -/

/-- `INIT` (41_keyschedule.md R106). -/
theorem execInit_cases {a b : BitVec 8} {d : Data} {s t : State} (h : execInit a b d s = .next t) :
    (s.phase ≠ .empty ∧ t = s.emit .seq 0)
    ∨ (s.phase = .empty ∧ ¬ (validBitSize a.toNat = true ∧ validRounds b.toNat = true) ∧ t = s.emit .config 0)
    ∨ (s.phase = .empty ∧ validBitSize a.toNat = true ∧ validRounds b.toNat = true
        ∧ ¬ (a.toNat ≤ s.cfg.bMax ∧ b.toNat ≤ s.cfg.rMax) ∧ t = s.emit .cap 0)
    ∨ (s.phase = .empty ∧ validBitSize a.toNat = true ∧ validRounds b.toNat = true
        ∧ a.toNat ≤ s.cfg.bMax ∧ b.toNat ≤ s.cfg.rMax
        ∧ ∃ u, s.writeTables (ksg (prngOf s.cfg.prng) a.toNat d b.toNat) = some u
          ∧ t = State.emit { u with phase := .ready, bitsz := a, rounds := b, wptr := 0 } .ok 0) := by
  unfold execInit at h
  by_cases h1 : s.phase = .empty
  · by_cases h2 : validBitSize a.toNat = true ∧ validRounds b.toNat = true
    · by_cases h3 : a.toNat ≤ s.cfg.bMax ∧ b.toNat ≤ s.cfg.rMax
      · have h3' : (fitsBits s.cfg a.toNat && fitsRounds s.cfg b.toNat) = true := by simp [h3]
        simp only [h1, ne_eq, not_true_eq_false, if_false, h2, Bool.and_self, Bool.not_true, h3'] at h
        cases hw : s.writeTables (ksg (prngOf s.cfg.prng) a.toNat d b.toNat) with
        | none => simp [hw] at h
        | some u =>
          simp only [hw, State.respond_eq] at h
          exact .inr (.inr (.inr ⟨h1, h2.1, h2.2, h3.1, h3.2, u, rfl, by simpa using h.symm⟩))
      · have h3' : (fitsBits s.cfg a.toNat && fitsRounds s.cfg b.toNat) = false := by
          rw [Bool.eq_false_iff]; simpa using h3
        simp only [h1, ne_eq, not_true_eq_false, if_false, h2, Bool.and_self, Bool.not_true, h3',
          Bool.not_false, if_true, State.raise_eq] at h
        exact .inr (.inr (.inl ⟨h1, h2.1, h2.2, h3, by simpa using h.symm⟩))
    · have h2' : (validBitSize a.toNat && validRounds b.toNat) = false := by
        rw [Bool.eq_false_iff]; simpa using h2
      simp only [h1, ne_eq, not_true_eq_false, if_false, h2', Bool.not_false, if_true, State.raise_eq,
        Host.Outcome.next.injEq] at h
      exact .inr (.inl ⟨h1, h2, h.symm⟩)
  · simp only [ne_eq, h1, not_false_eq_true, if_true, State.raise_eq, Host.Outcome.next.injEq] at h
    exact .inl ⟨h1, h.symm⟩

/-- `LDCFG` (42_table_load.md R120). -/
theorem execLdcfg_cases {a : BitVec 8} {s t : State} (h : execLdcfg a s = .next t) :
    (s.phase ≠ .empty ∧ t = s.emit .seq 0)
    ∨ (s.phase = .empty ∧ ¬ validBitSize a.toNat = true ∧ t = s.emit .config 0)
    ∨ (s.phase = .empty ∧ validBitSize a.toNat = true ∧ ¬ a.toNat ≤ s.cfg.bMax ∧ t = s.emit .cap 0)
    ∨ (s.phase = .empty ∧ validBitSize a.toNat = true ∧ a.toNat ≤ s.cfg.bMax
        ∧ t = State.emit { s with phase := .loading, bitsz := a, rounds := 0, wptr := 0 } .ok 0) := by
  unfold execLdcfg at h
  split at h
  · next h1 => exact .inl ⟨h1, (Host.Outcome.next.inj h).symm⟩
  · next h1 =>
    have h1 := not_not.1 h1
    split at h
    · next h2 => exact .inr (.inl ⟨h1, by simpa using h2, (Host.Outcome.next.inj h).symm⟩)
    · next h2 =>
      have h2 : validBitSize a.toNat = true := by
        rw [Bool.not_eq_true, Bool.not_eq_false'] at h2; exact h2
      split at h
      · next h3 => exact .inr (.inr (.inl ⟨h1, h2, by simpa using h3, (Host.Outcome.next.inj h).symm⟩))
      · next h3 => exact .inr (.inr (.inr ⟨h1, h2, by simpa using h3, (Host.Outcome.next.inj h).symm⟩))

/-- `LDENT` (42_table_load.md R121). -/
theorem execLdent_cases {d : Data} {s t : State} (h : execLdent d s = .next t) :
    (s.phase ≠ .loading ∧ t = s.emit .seq 0)
    ∨ (s.phase = .loading ∧ ¬ (s.wptr.toNat < tlen s.bitsz.toNat ∧ d.toNat < maxs s.bitsz.toNat)
        ∧ t = s.abortLoad.emit .config 0)
    ∨ (s.phase = .loading ∧ s.wptr.toNat < tlen s.bitsz.toNat ∧ d.toNat < maxs s.bitsz.toNat
        ∧ ¬ s.rounds.toNat < s.cfg.rMax ∧ t = s.abortLoad.emit .cap 0)
    ∨ (s.phase = .loading ∧ s.wptr.toNat < tlen s.bitsz.toNat ∧ d.toNat < maxs s.bitsz.toNat
        ∧ s.rounds.toNat < s.cfg.rMax
        ∧ ∃ u, s.writeCell s.rounds.toNat s.wptr.toNat d.toNat = some u
          ∧ t = State.emit { u with wptr := u.wptr + 1 } .ok 0) := by
  unfold execLdent at h
  split at h
  · next h1 => exact .inl ⟨h1, (Host.Outcome.next.inj h).symm⟩
  · next h1 =>
    have h1 := not_not.1 h1
    split at h
    · next h2 =>
      have h2 : ¬ s.wptr.toNat < tlen s.bitsz.toNat := by simpa using h2
      exact .inr (.inl ⟨h1, fun e => h2 e.1, (Host.Outcome.next.inj h).symm⟩)
    · next h2 =>
      have h2 : s.wptr.toNat < tlen s.bitsz.toNat := by simpa using h2
      split at h
      · next h3 =>
        have h3 : ¬ d.toNat < maxs s.bitsz.toNat := by simpa using h3
        exact .inr (.inl ⟨h1, fun e => h3 e.2, (Host.Outcome.next.inj h).symm⟩)
      · next h3 =>
        have h3 : d.toNat < maxs s.bitsz.toNat := by simpa using h3
        split at h
        · next h4 =>
          exact .inr (.inr (.inl ⟨h1, h2, h3, by simpa using h4, (Host.Outcome.next.inj h).symm⟩))
        · next h4 =>
          split at h
          · simp at h
          · next u hu =>
            exact .inr (.inr (.inr ⟨h1, h2, h3, by simpa using h4, u, hu, (Host.Outcome.next.inj h).symm⟩))

/-- `LDEND` (42_table_load.md R122). -/
theorem execLdend_cases {s t : State} (h : execLdend s = .next t) :
    (s.phase ≠ .loading ∧ t = s.emit .seq 0)
    ∨ (s.phase = .loading ∧ s.wptr.toNat ≠ tlen s.bitsz.toNat ∧ t = s.abortLoad.emit .config 0)
    ∨ (s.phase = .loading ∧ s.wptr.toNat = tlen s.bitsz.toNat
        ∧ t = State.emit { s with rounds := s.rounds + 1, wptr := 0 } .ok 0) := by
  unfold execLdend at h
  split at h
  · next h1 => exact .inl ⟨h1, (Host.Outcome.next.inj h).symm⟩
  · next h1 =>
    have h1 := not_not.1 h1
    split at h
    · next h2 => exact .inr (.inl ⟨h1, by simpa using h2, (Host.Outcome.next.inj h).symm⟩)
    · next h2 => exact .inr (.inr ⟨h1, by simpa using h2, (Host.Outcome.next.inj h).symm⟩)

/-- `SEAL` (42_table_load.md R123). -/
theorem execSeal_cases {s t : State} (h : execSeal s = .next t) :
    (s.phase ≠ .loading ∧ t = s.emit .seq 0)
    ∨ (s.phase = .loading ∧ ¬ (s.wptr = 0 ∧ 1 ≤ s.rounds.toNat) ∧ t = s.abortLoad.emit .config 0)
    ∨ (s.phase = .loading ∧ s.wptr = 0 ∧ 1 ≤ s.rounds.toNat
        ∧ t = State.emit { s with phase := .ready } .ok 0) := by
  unfold execSeal at h
  split at h
  · next h1 => exact .inl ⟨h1, (Host.Outcome.next.inj h).symm⟩
  · next h1 =>
    have h1 := not_not.1 h1
    split at h
    · next h2 => exact .inr (.inl ⟨h1, fun e => h2 e.1, (Host.Outcome.next.inj h).symm⟩)
    · next h2 =>
      have h2 := not_not.1 h2
      split at h
      · next h3 =>
        have h3 : ¬ 1 ≤ s.rounds.toNat := by simpa using h3
        exact .inr (.inl ⟨h1, fun e => h3 e.2, (Host.Outcome.next.inj h).symm⟩)
      · next h3 =>
        have h3 : 1 ≤ s.rounds.toNat := by
          rw [Bool.not_eq_true, Bool.not_eq_false', validRounds_iff] at h3; exact h3
        exact .inr (.inr ⟨h1, h2, h3, (Host.Outcome.next.inj h).symm⟩)

/-- `ENC` (43_transform.md R148). -/
theorem execEnc_cases {d : Data} {s t : State} (h : execEnc d s = .next t) :
    (s.phase ≠ .ready ∧ t = s.emit .seq 0)
    ∨ (s.phase = .ready ∧ ¬ d.toNat < 2 ^ s.bitsz.toNat ∧ t = s.emit .domain 0)
    ∨ (s.phase = .ready ∧ d.toNat < 2 ^ s.bitsz.toNat
        ∧ ∃ v, encodeFn s.bitsz.toNat s.schedule d.toNat = some v ∧ t = s.emit .ok (BitVec.ofNat 64 v)) := by
  unfold execEnc at h
  split at h
  · next h1 => exact .inl ⟨h1, (Host.Outcome.next.inj h).symm⟩
  · next h1 =>
    have h1 := not_not.1 h1
    split at h
    · next h2 => exact .inr (.inl ⟨h1, by simpa using h2, (Host.Outcome.next.inj h).symm⟩)
    · next h2 =>
      split at h
      · simp at h
      · next v hv => exact .inr (.inr ⟨h1, by simpa using h2, v, hv, (Host.Outcome.next.inj h).symm⟩)

/-- `DEC` (43_transform.md R149). -/
theorem execDec_cases {d : Data} {s t : State} (h : execDec d s = .next t) :
    (s.phase ≠ .ready ∧ t = s.emit .seq 0)
    ∨ (s.phase = .ready ∧ ¬ d.toNat < 2 ^ s.bitsz.toNat ∧ t = s.emit .domain 0)
    ∨ (s.phase = .ready ∧ d.toNat < 2 ^ s.bitsz.toNat
        ∧ ∃ v, decodeFn s.bitsz.toNat s.schedule d.toNat = some v ∧ t = s.emit .ok (BitVec.ofNat 64 v)) := by
  unfold execDec at h
  split at h
  · next h1 => exact .inl ⟨h1, (Host.Outcome.next.inj h).symm⟩
  · next h1 =>
    have h1 := not_not.1 h1
    split at h
    · next h2 => exact .inr (.inl ⟨h1, by simpa using h2, (Host.Outcome.next.inj h).symm⟩)
    · next h2 =>
      split at h
      · simp at h
      · next v hv => exact .inr (.inr ⟨h1, by simpa using h2, v, hv, (Host.Outcome.next.inj h).symm⟩)

/-- `RDT` (44_status_control.md R170). -/
theorem execRdt_cases {a : BitVec 8} {d : Data} {s t : State} (h : execRdt a d s = .next t) :
    (s.phase ≠ .ready ∧ t = s.emit .seq 0)
    ∨ (s.phase = .ready ∧ ¬ (a.toNat < s.rounds.toNat ∧ d.toNat < tlen s.bitsz.toNat) ∧ t = s.emit .index 0)
    ∨ (s.phase = .ready ∧ a.toNat < s.rounds.toNat ∧ d.toNat < tlen s.bitsz.toNat
        ∧ ∃ v, s.readCell a.toNat d.toNat = some v ∧ t = s.emit .ok (v.setWidth 64)) := by
  unfold execRdt at h
  split at h
  · next h1 => exact .inl ⟨h1, (Host.Outcome.next.inj h).symm⟩
  · next h1 =>
    have h1 := not_not.1 h1
    split at h
    · next h2 =>
      simp only [Bool.or_eq_true, decide_eq_true_eq] at h2
      exact .inr (.inl ⟨h1, by omega, (Host.Outcome.next.inj h).symm⟩)
    · next h2 =>
      simp only [Bool.or_eq_true, decide_eq_true_eq, not_or, not_le] at h2
      split at h
      · simp at h
      · next v hv => exact .inr (.inr ⟨h1, h2.1, h2.2, v, hv, (Host.Outcome.next.inj h).symm⟩)

/-- `STAT` (44_status_control.md R171). -/
@[simp] theorem execStat_eq (s : State) :
    execStat s = .next (s.emit .ok (statWord s.phase s.bitsz s.rounds s.wptr)) := rfl

/-- `RST` (44_status_control.md R173). -/
@[simp] theorem execRst_eq (s : State) : execRst s = .next (s.hardReset.emit .ok 0) := rfl

/-! ### What a step can do -/

/-- One event of the port: nothing, a reset, an illegal word, or a command (30_encoding.md R61). -/
theorem step_cases {s t : State} (h : step s = .next t) :
    (s.inputs = [] ∧ t = s)
    ∨ (∃ cut rest, s.inputs = .reset cut :: rest ∧ t = State.hardReset { s with inputs := rest })
    ∨ (∃ w rest r, s.inputs = .command w :: rest ∧ decode w = .error r
        ∧ t = State.emit { s with inputs := rest } .illegal 0)
    ∨ (∃ w rest i, s.inputs = .command w :: rest ∧ decode w = .ok i ∧ exec i { s with inputs := rest } = .next t) := by
  unfold step at h
  split at h
  · next hi => exact .inl ⟨hi, (Host.Outcome.next.inj h).symm⟩
  · next e rest hi =>
    cases e with
    | reset cut => exact .inr (.inl ⟨cut, rest, hi, (Host.Outcome.next.inj h).symm⟩)
    | command w =>
      simp only [acceptEvent, acceptCommand] at h
      split at h
      · next r hr => exact .inr (.inr (.inl ⟨w, rest, r, hi, hr, (Host.Outcome.next.inj h).symm⟩))
      · next i hd => exact .inr (.inr (.inr ⟨w, rest, i, hi, hd, h⟩))

end Sys2Proof.Machine
end

