-- ==== Sys2Proof/Laws/KeySchedule.lean ====
section
/-! SUPPORT. Laws/KeySchedule.lean: what the drawing of one table does (41_keyschedule.md R102). -/

namespace Sys2Proof.Machine

theorem drawTable_length (g : Prng) (h n : Nat) (s : g.S) : (drawTable g h n s).1.length = n := by
  induction n generalizing s with
  | zero => rfl
  | succ n ih => simp [drawTable, ih]

theorem drawTables_length (g : Prng) (h len n : Nat) (s : g.S) : (drawTables g h len n s).length = n := by
  induction n generalizing s with
  | zero => rfl
  | succ n ih => simp [drawTables, ih]

/-- The state of a generator after `k` draws. -/
def stateAfter (g : Prng) (h : Nat) : Nat → g.S → g.S
  | 0, s => s
  | k + 1, s => stateAfter g h k (g.draw s h).2

/-- One table leaves the generator advanced once for each entry (law 3 of R101). -/
theorem drawTable_state (g : Prng) (h n : Nat) (s : g.S) : (drawTable g h n s).2 = stateAfter g h n s := by
  induction n generalizing s with
  | zero => rfl
  | succ n ih => simp [drawTable, stateAfter, ih]

/-- Entry `i` of a table is draw number `i` of that table. -/
theorem drawTable_getElem (g : Prng) (h n i : Nat) (s : g.S) (hi : i < n) :
    (drawTable g h n s).1[i]? = some (drawNumber g h i s) := by
  induction n generalizing s i with
  | zero => omega
  | succ n ih =>
    cases i with
    | zero => simp [drawTable, drawNumber]
    | succ i => simpa [drawTable, drawNumber] using ih i _ (by omega)

theorem drawNumber_add (g : Prng) (h k j : Nat) (s : g.S) :
    drawNumber g h (k + j) s = drawNumber g h j (stateAfter g h k s) := by
  induction k generalizing s with
  | zero => simp [stateAfter]
  | succ k ih =>
    have : k + 1 + j = (k + j) + 1 := by omega
    rw [this, drawNumber, ih, stateAfter]

theorem drawNumber_succ (g : Prng) (h k : Nat) (s : g.S) :
    drawNumber g h (k + 1) s = drawNumber g h k (g.draw s h).2 := rfl

/-! ### `SM64` (41_keyschedule.md R104). Rewrite with these: a `rfl` that compares two sums with `gamma` unfolds them. -/

theorem sm64Draw_fst (s : Data) (h : Nat) : (sm64Draw s h).1 = (mix64 (s + gamma)).toNat >>> (64 - h) := rfl

theorem sm64Draw_snd (s : Data) (h : Nat) : (sm64Draw s h).2 = s + gamma := rfl

theorem drawNumber_sm64_zero (h : Nat) (s : Data) : drawNumber sm64 h 0 s = (sm64Draw s h).1 := rfl

theorem drawNumber_sm64_succ (h k : Nat) (s : Data) :
    drawNumber sm64 h (k + 1) s = drawNumber sm64 h k (sm64Draw s h).2 := drawNumber_succ sm64 h k s

/-! ### The range of a table -/

theorem drawTable_lt {g : Prng} (hg : g.InRange) (h n : Nat) (s : g.S) : ∀ v ∈ (drawTable g h n s).1, v < 2 ^ h := by
  induction n generalizing s with
  | zero => simp [drawTable]
  | succ n ih =>
    intro v hv
    simp only [drawTable, List.mem_cons] at hv
    rcases hv with rfl | hv
    · exact hg s h
    · exact ih _ v hv

end Sys2Proof.Machine
end

