-- ==== Sys2Proof/Laws/PerInstr.lean ====
section
/-! SUPPORT. Laws/PerInstr.lean: facts about every command as syntax, one lemma for each constructor. -/

namespace Sys2Proof.Laws.LegalFields

/-- The fields a command lays out are legal: nothing in a reserved or unused field (30_encoding.md R63, R68). -/
def Statement (i : Instr) : Prop := i.wellFormed = true

theorem init (bitSize rounds : BitVec 8) (seed : Data) : Statement (.init bitSize rounds seed) := by
  simp [Statement, Instr.wellFormed, Instr.fields, CmdFields.legal, CmdFields.opcodeAssigned, CmdFields.usesA,
    CmdFields.usesB, CmdFields.usesD]

theorem ldcfg (bitSize : BitVec 8) : Statement (.ldcfg bitSize) := by
  simp [Statement, Instr.wellFormed, Instr.fields, CmdFields.legal, CmdFields.opcodeAssigned, CmdFields.usesA,
    CmdFields.usesB, CmdFields.usesD]

theorem ldent (v : Data) : Statement (.ldent v) := by
  simp [Statement, Instr.wellFormed, Instr.fields, CmdFields.legal, CmdFields.opcodeAssigned, CmdFields.usesA,
    CmdFields.usesB, CmdFields.usesD]

theorem ldend : Statement .ldend := by unfold Statement; decide

theorem sealLoad : Statement .sealLoad := by unfold Statement; decide

theorem enc (value : Data) : Statement (.enc value) := by
  simp [Statement, Instr.wellFormed, Instr.fields, CmdFields.legal, CmdFields.opcodeAssigned, CmdFields.usesA,
    CmdFields.usesB, CmdFields.usesD]

theorem dec (value : Data) : Statement (.dec value) := by
  simp [Statement, Instr.wellFormed, Instr.fields, CmdFields.legal, CmdFields.opcodeAssigned, CmdFields.usesA,
    CmdFields.usesB, CmdFields.usesD]

theorem rdt (r : BitVec 8) (i : Data) : Statement (.rdt r i) := by
  simp [Statement, Instr.wellFormed, Instr.fields, CmdFields.legal, CmdFields.opcodeAssigned, CmdFields.usesA,
    CmdFields.usesB, CmdFields.usesD]

theorem stat : Statement .stat := by unfold Statement; decide

theorem rst : Statement .rst := by unfold Statement; decide

end Sys2Proof.Laws.LegalFields
end

