-- ==== Sys2Proof/Laws/Transform.lean ====
section
/-! SUPPORT. Laws/Transform.lean: what one round reads and where it leaves the halves (43_transform.md). -/

namespace Sys2Proof.Machine

theorem maxs_pos (b : Nat) : 0 < maxs b := Nat.two_pow_pos _

theorem dom_eq {b : Nat} (hb : EvenSize b) : 2 ^ b = maxs b * maxs b := by
  obtain ⟨h, _⟩ := hb
  unfold maxs half
  rw [← Nat.pow_add]
  congr 1; omega

theorem addm_lt {m : Nat} (hm : 0 < m) (a t : Nat) : addm m a t < m := Nat.mod_lt _ hm

theorem subm_lt {m : Nat} (hm : 0 < m) (a t : Nat) : subm m a t < m := by
  unfold subm
  have h1 := Int.emod_nonneg ((a : Int) - t) (b := (m : Int)) (by omega)
  have h2 := Int.emod_lt_of_pos ((a : Int) - t) (b := (m : Int)) (by omega)
  omega

/-- The halves of a value as remainder and quotient (43_transform.md R140). -/
theorem split_eq (b v : Nat) : split b v = (v % maxs b, v / maxs b % maxs b) := by
  simp [split, mask, maxs, Nat.and_two_pow_sub_one_eq_mod, Nat.shiftRight_eq_div_pow]

theorem split_lt (b v : Nat) : (split b v).1 < maxs b ∧ (split b v).2 < maxs b := by
  rw [split_eq]
  exact ⟨Nat.mod_lt _ (maxs_pos b), Nat.mod_lt _ (maxs_pos b)⟩

/-- The halves put together as a sum (43_transform.md R145). -/
theorem join_eq {b x : Nat} (y : Nat) (hx : x < maxs b) : join b (x, y) = y * maxs b + x := by
  unfold join maxs at *
  rw [← Nat.shiftLeft_add_eq_or_of_lt hx, Nat.shiftLeft_eq]

/-- A forward round that is defined (43_transform.md R143). -/
theorem roundFwd_eq_some {b : Nat} {t : RoundTable} {p q : Halves} :
    roundFwd b t p = some q ↔
      ∃ u w, t p.2 = some u ∧ t (addm (maxs b) p.1 u + xoff b) = some w
        ∧ q = (addm (maxs b) p.1 u, addm (maxs b) p.2 w) := by
  unfold roundFwd
  constructor
  · intro h
    split at h
    · simp at h
    · next u hu =>
      dsimp only at h
      split at h
      · simp at h
      · next w hw => exact ⟨u, w, hu, hw, (Option.some.inj h).symm⟩
  · rintro ⟨u, w, hu, hw, rfl⟩
    simp [hu, hw]

/-- An inverse round that is defined (43_transform.md R144). -/
theorem roundInv_eq_some {b : Nat} {t : RoundTable} {p q : Halves} :
    roundInv b t p = some q ↔
      ∃ w u, t (p.1 + xoff b) = some w ∧ t (subm (maxs b) p.2 w) = some u
        ∧ q = (subm (maxs b) p.1 u, subm (maxs b) p.2 w) := by
  unfold roundInv
  constructor
  · intro h
    split at h
    · simp at h
    · next w hw =>
      dsimp only at h
      split at h
      · simp at h
      · next u hu => exact ⟨w, u, hw, hu, (Option.some.inj h).symm⟩
  · rintro ⟨w, u, hw, hu, rfl⟩
    simp [hu, hw]

/-- A valid table answers every index below its length, in range. -/
theorem tableOf_of_valid {b : Nat} {t : List Nat} (ht : ValidTable b t) {i : Nat} (hi : i < tlen b) :
    ∃ v, tableOf t i = some v ∧ v < maxs b := by
  have hi' : i < t.length := by rw [ht.1]; exact hi
  exact ⟨t[i], by simp [tableOf, hi'], ht.2 _ (List.getElem_mem hi')⟩

end Sys2Proof.Machine
end

