-- ==== Sys2Proof/Tests/Slice0.lean ====
section
/-! SUPPORT. Tests/Slice0.lean: the model's own tests. Every expected word and value is one that 95_test_vectors.md or the cited
rule writes out (none comes from the model), and each is one step, or one function, on a small state. The last part holds the
witnesses: for each statement with hypotheses, concrete states and operands that meet them. -/

namespace Sys2Proof.Tests

open Sys2Proof.Machine

/-! ### Helpers -/

/-- An engine in a given phase whose store holds the given rows from round 0 on. -/
def engine (p : Phase) (b n : BitVec 8) (w : Pointer) (rows : List (List Nat)) : State :=
  { State.reset with
    phase := p, bitsz := b, rounds := n, wptr := w
    rtr := (tableCells 0 rows).map (fun c => (c.1, BitVec.ofNat 32 c.2)) }

/-- The same engine built with `R_MAX = 1`, as V-25 to V-27 ask. -/
def withOneRound (s : State) : State := { s with cfg := { s.cfg with rMax := 1 } }

/-- The response word a command gets, by the step that takes its word. -/
def reply (w : PortWord) (s : State) : Option PortWord :=
  match step { s with inputs := [.command w] } with
  | .next t => t.rsps.getLast?
  | .fault _ => none
  | .refused _ => none

/-- `PHASE`, `BITSZ`, `ROUNDS`, `WPTR` after the step that takes a command word. -/
def regsAfter (w : PortWord) (s : State) : Option (Phase × BitVec 8 × BitVec 8 × Pointer) :=
  match step { s with inputs := [.command w] } with
  | .next t => some (t.phase, t.bitsz, t.rounds, t.wptr)
  | .fault _ => none
  | .refused _ => none

/-- One cell after the step that takes a command word. -/
def cellAfter (w : PortWord) (s : State) (r i : Nat) : Option CellWord :=
  match step { s with inputs := [.command w] } with
  | .next t => t.readCell r i
  | .fault _ => none
  | .refused _ => none

/-- The command answers a next state, with this status. -/
def answers (i : Instr) (s : State) (st : Status) : Bool :=
  match exec i s with
  | .next t => t.lastStatusIs st
  | .fault _ => false
  | .refused _ => false

theorem exists_of_answers {i : Instr} {s : State} {st : Status} (h : answers i s st = true) :
    ∃ t, exec i s = .next t ∧ t.lastStatusIs st = true := by
  unfold answers at h
  split at h
  · next t ht => exact ⟨t, ht, h⟩
  · cases h
  · cases h

/-- The values a function of halves gives on the whole domain of a bit size. -/
def sweep (b : Nat) (f : Nat → Option Nat) : List (Option Nat) := (List.range (dom b)).map f

/-- `READY`, `bit_size = 2`, the table of T-1. -/
def ready2 : State := engine .ready 2 1 0 [[1, 0, 1, 1]]

/-- `READY`, `bit_size = 4`, the two tables of T-2 and P-2. -/
def ready4 : State := engine .ready 4 2 0 [[1, 2, 3, 0, 3, 1, 0, 2], [0, 3, 3, 1, 2, 2, 1, 0]]

/-- `LOADING`, `bit_size = 4`, nothing loaded (V-17 to V-19). -/
def loading4 : State := engine .loading 4 0 0 []

/-- `LOADING`, `bit_size = 4`, eight entries of round 0 and no `LDEND` (V-20, V-21, V-24). -/
def loading4full : State := engine .loading 4 0 8 [[1, 2, 3, 0, 3, 1, 0, 2]]

/-- `LOADING`, `bit_size = 2`, two entries (C-4, P-3 steps 3 to 7). -/
def loading2 : State := engine .loading 2 0 2 [[1, 0]]

/-- `LOADING`, `bit_size = 2`, one table ended (L-2). -/
def loading2one : State := engine .loading 2 1 0 [[1, 0, 1, 1]]

/-! ### Decoding: every command's word written out (95_test_vectors.md section 2) -/

theorem test_decode_init : decode 0x00000000DEADBEEF00051001 = .ok (.init 16 5 0xDEADBEEF) := by decide
theorem test_decode_init_top : decode 0xFFFFFFFFFFFFFFFF00FF0201 = .ok (.init 2 255 0xFFFFFFFFFFFFFFFF) := by decide
theorem test_decode_ldcfg : decode 0x000000000000000000000402 = .ok (.ldcfg 4) := by decide
theorem test_decode_ldent : decode 0x000000000000000300000003 = .ok (.ldent 3) := by decide
theorem test_decode_ldend : decode 0x000000000000000000000004 = .ok .ldend := by decide
theorem test_decode_seal : decode 0x000000000000000000000005 = .ok .sealLoad := by decide
theorem test_decode_enc : decode 0x000000000000001100000006 = .ok (.enc 17) := by decide
theorem test_decode_dec : decode 0x00000000000000F400000007 = .ok (.dec 244) := by decide
theorem test_decode_rdt : decode 0x000000000000001F00000408 = .ok (.rdt 4 31) := by decide
theorem test_decode_stat : decode 0x000000000000000000000009 = .ok .stat := by decide
theorem test_decode_rst : decode 0x00000000000000000000000A = .ok .rst := by decide

/-- E-14 to E-26: the illegal words, each for its own reason. -/
theorem test_decode_illegal :
    decode 0x000000000000000000000000 = .error .reservedOpcode
    ∧ decode 0x00000000000000000000000B = .error .reservedOpcode
    ∧ decode 0x00000000000000000000000F = .error .reservedOpcode
    ∧ decode 0x000000000000001100000016 = .error .rsv0
    ∧ decode 0x000000000000001101000006 = .error .rsv1
    ∧ decode 0x000000000000001100000106 = .error .unusedA
    ∧ decode 0x000000000000001100010006 = .error .unusedB
    ∧ decode 0x000000000000000100000009 = .error .unusedD
    ∧ decode 0x000000000000000000010408 = .error .unusedB
    ∧ decode 0x000000000000000100000402 = .error .unusedD
    ∧ decode 0x000000000000000100000103 = .error .unusedA
    ∧ decode 0x00000000000000000000010A = .error .unusedA
    ∧ decode 0x000000000000002A00050811 = .error .rsv0 := by decide

/-- The encoder gives the words of E-1, E-5, E-11. -/
theorem test_encode :
    encode (.init 8 5 42) = 0x000000000000002A00050801 ∧ encode (.ldcfg 4) = 0x000000000000000000000402
    ∧ encode (.rdt 4 31) = 0x000000000000001F00000408 := by decide

/-- The byte transport of E-1: `01 08 05 00 2A 00 ...`, first byte first (R45). -/
theorem test_bytes :
    bytesOfWord 0x000000000000002A00050801 = [0x01, 0x08, 0x05, 0x00, 0x2A, 0, 0, 0, 0, 0, 0, 0]
    ∧ decodeBytes [0x01, 0x08, 0x05, 0x00, 0x2A, 0, 0, 0, 0, 0, 0, 0, 0x77] = .ok (.init 8 5 42, [0x77])
    ∧ decodeBytes [0x01, 0x08, 0x05, 0x00, 0x2A, 0, 0, 0, 0, 0, 0] = .error .truncated := by decide

/-- The two pseudo-instructions: `INIT 8, 42` is E-2; `LOAD 2, [[1, 0, 1, 1]]` expands as L-2. -/
theorem test_assemble :
    (assemble (.initDefault 8 42)).map (fun l => l.map encode) = some [0x000000000000002A00050801]
    ∧ assemble (.load 2 [[1, 0, 1, 1]])
      = some [.ldcfg 2, .ldent 1, .ldent 0, .ldent 1, .ldent 1, .ldend, .sealLoad] := by decide

/-- The assembler's text: the examples of R72, R74 and L-2, a comment, and lines that are assembly errors. -/
theorem test_assemble_text :
    assembleText "INIT 8, 42, 5\nINIT 8, 42 ; two operands\n\nRDT 4, 31"
      = some [.init 8 5 42, .init 8 5 42, .rdt 4 31]
    ∧ assembleText "LOAD 2, [[1, 0, 1, 1]]"
      = some [.ldcfg 2, .ldent 1, .ldent 0, .ldent 1, .ldent 1, .ldend, .sealLoad]
    ∧ assembleText "INIT 16, 0xDEADBEEF, 5" = some [.init 16 5 0xDEADBEEF]
    ∧ assembleText "ENC -1" = none ∧ assembleText "LDCFG 256" = none ∧ assembleText "STAT 1" = none := by decide

/-! ### WellFormed: for each check an ill-formed term, refused (R63, R68, R72) -/

theorem smoke_opcode_zero : (fieldsOf 0x000000000000000000000000).legal = false := by decide
theorem smoke_opcode_above : (fieldsOf 0x00000000000000000000000B).legal = false := by decide
theorem smoke_rsv0 : (fieldsOf 0x000000000000001100000016).legal = false := by decide
theorem smoke_rsv1 : (fieldsOf 0x000000000000001101000006).legal = false := by decide
theorem smoke_unused_a : (fieldsOf 0x000000000000001100000106).legal = false := by decide
theorem smoke_unused_b : (fieldsOf 0x000000000000000000010408).legal = false := by decide
theorem smoke_unused_d : (fieldsOf 0x000000000000000100000009).legal = false := by decide
theorem smoke_field_range : fitsField 8 (-1) = false ∧ fitsField 8 256 = false ∧ fitsField 8 255 = true := by decide
theorem smoke_line_init :
    (AsmLine.init 256 0 5).wellFormed = false ∧ (AsmLine.init 8 (-1) 5).wellFormed = false
    ∧ (AsmLine.init 8 0 256).wellFormed = false := by decide
theorem smoke_line_init_default :
    (AsmLine.initDefault (-1) 0).wellFormed = false ∧ (AsmLine.initDefault 8 (2 ^ 64)).wellFormed = false := by decide
theorem smoke_line_ldcfg : (AsmLine.ldcfg 256).wellFormed = false := by decide
theorem smoke_line_ldent : (AsmLine.ldent (-1)).wellFormed = false := by decide
theorem smoke_line_enc : (AsmLine.enc (-1)).wellFormed = false := by decide
theorem smoke_line_dec : (AsmLine.dec (2 ^ 64)).wellFormed = false := by decide
theorem smoke_line_rdt :
    (AsmLine.rdt 256 0).wellFormed = false ∧ (AsmLine.rdt 0 (-1)).wellFormed = false := by decide
theorem smoke_line_load :
    (AsmLine.load 256 []).wellFormed = false ∧ (AsmLine.load 2 [[1], [0, -1]]).wellFormed = false := by decide

/-! ### The commands, one step each -/

/-- V-2, V-4, V-10, V-11, V-13, V-14: the order of the checks of `INIT`. -/
theorem test_init_checks :
    reply 0x000000000000000000050001 State.reset = some 0x1 ∧ reply 0x000000000000000000000801 State.reset = some 0x1
    ∧ reply 0x000000000000000000051201 State.reset = some 0x5 ∧ reply 0x000000000000000000110801 State.reset = some 0x5
    ∧ reply 0x000000000000000000C81101 State.reset = some 0x1
    ∧ reply 0x000000000000000000001201 State.reset = some 0x1 := by decide

/-- P-4 step 11: `INIT 2, 7, 3` answers `OK`, is `READY` and leaves 1 in `RTR[2][3]`. -/
theorem test_init_builds :
    reply 0x000000000000000700030201 State.reset = some 0x0
    ∧ regsAfter 0x000000000000000700030201 State.reset = some (.ready, 2, 3, 0)
    ∧ cellAfter 0x000000000000000700030201 State.reset 2 3 = some 1
    ∧ cellAfter 0x000000000000000700030201 State.reset 2 4 = none := by decide

/-- V-6, V-7, V-12 and L-2's first row. -/
theorem test_ldcfg :
    reply 0x000000000000000000000102 State.reset = some 0x1 ∧ reply 0x000000000000000000000002 State.reset = some 0x1
    ∧ reply 0x000000000000000000001202 State.reset = some 0x5
    ∧ regsAfter 0x000000000000000000000202 State.reset = some (.loading, 2, 0, 0) := by decide

/-- V-17, V-18, V-19, V-20. -/
theorem test_ldent :
    reply 0x000000000000000300000003 loading4 = some 0x0 ∧ cellAfter 0x000000000000000300000003 loading4 0 0 = some 3
    ∧ reply 0x000000000000000400000003 loading4 = some 0x1
    ∧ reply 0xFFFFFFFFFFFFFFFF00000003 loading4 = some 0x1
    ∧ regsAfter 0x000000000000000000000003 loading4full = some (.empty, 0, 0, 0) := by decide

/-- V-25 and V-26: the full store, and an entry out of range before it. -/
theorem test_ldent_full :
    reply 0x000000000000000100000003 (withOneRound loading2one) = some 0x5
    ∧ regsAfter 0x000000000000000100000003 (withOneRound loading2one) = some (.empty, 0, 0, 0)
    ∧ reply 0x000000000000000200000003 (withOneRound loading2one) = some 0x1 := by decide

/-- P-2 step 10, V-23. -/
theorem test_ldend :
    regsAfter 0x000000000000000000000004 loading4full = some (.loading, 4, 1, 0)
    ∧ reply 0x000000000000000000000004 loading2one = some 0x1
    ∧ regsAfter 0x000000000000000000000004 loading2one = some (.empty, 0, 0, 0) := by decide

/-- V-9, V-24, V-27. -/
theorem test_seal :
    reply 0x000000000000000000000005 (engine .loading 2 0 0 []) = some 0x1
    ∧ reply 0x000000000000000000000005 loading4full = some 0x1
    ∧ regsAfter 0x000000000000000000000005 (withOneRound loading2one) = some (.ready, 2, 1, 0) := by decide

/-- P-2 steps 23 and 25, X-1. -/
theorem test_enc :
    reply 0x000000000000000B00000006 ready4 = some 0x000000000000000900000000
    ∧ reply 0x000000000000001000000006 ready4 = some 0x2
    ∧ reply 0x000000000000000000000006 State.reset = some 0x3 := by decide

/-- P-2 step 24; `DEC` outside the domain; X-5. -/
theorem test_dec :
    reply 0x000000000000000900000007 ready4 = some 0x000000000000000B00000000
    ∧ reply 0x000000000000001000000007 ready4 = some 0x2
    ∧ reply 0x000000000000000000000007 loading4 = some 0x3 := by decide

/-- P-2 step 26, and one past the last round and the last index. -/
theorem test_rdt :
    reply 0x000000000000000300000108 ready4 = some 0x000000000000000100000000
    ∧ reply 0x000000000000000000000208 ready4 = some 0x6 ∧ reply 0x000000000000000800000108 ready4 = some 0x6
    ∧ reply 0xFFFFFFFFFFFFFFFF00000008 ready4 = some 0x6 := by decide

/-- C-1, C-3, C-5 (registers alone matter to `STAT`), P-2 step 22. -/
theorem test_stat :
    reply 0x9 State.reset = some 0x0
    ∧ reply 0x9 (engine .loading 4 1 3 []) = some 0x000000000301040100000000
    ∧ reply 0x9 (engine .loading 16 0 512 []) = some 0x000000020000100100000000
    ∧ reply 0x9 ready4 = some 0x000000000002040200000000 := by decide

/-- C-13. -/
theorem test_rst :
    reply 0xA ready4 = some 0x0 ∧ regsAfter 0xA ready4 = some (.empty, 0, 0, 0)
    ∧ cellAfter 0xA ready4 0 0 = none := by decide

/-- X-6, X-7, X-8, X-10, X-11: priorities. -/
theorem test_priority :
    reply 0x000000000000001100000106 State.reset = some 0x4 ∧ reply 0x000000000000000000000301 ready4 = some 0x3
    ∧ reply 0x000001000000000000000006 loading4 = some 0x3 ∧ reply 0x000000000000000900000003 loading4full = some 0x1
    ∧ reply 0x000000000000010000000106 ready4 = some 0x4 := by decide

/-- The fetch interface: E-9's word, numbered as opcode_table.json numbers it. -/
theorem test_table_word :
    decodeTableWord 96 0x000000000000001100000006 = some (.enc 17) ∧ decodeTableWord 96 0x16 = none
    ∧ (State.withFetchWord ready4 96 0x6).inputs = [.command 0x6] := by decide

/-! ### The functions -/

/-- T-0. -/
theorem test_arithmetic :
    addm 16 15 15 = 14 ∧ addm 16 7 9 = 0 ∧ subm 16 0 1 = 15 ∧ subm 16 3 12 = 7 ∧ addm 2 1 1 = 0 ∧ subm 2 0 1 = 1
    ∧ split 8 0xA7 = (7, 10) ∧ join 8 (7, 10) = 0xA7 ∧ split 2 2 = (0, 1) := by decide

/-- T-1: both tables. -/
theorem test_small_permutation :
    sweep 2 (encodeFn 2 [tableOf [1, 0, 1, 1]]) = [some 3, some 0, some 2, some 1]
    ∧ sweep 2 (decodeFn 2 [tableOf [1, 0, 1, 1]]) = [some 1, some 3, some 2, some 0] := by decide

/-- T-2, two rounds, and L-4's other order at 0 and 15. -/
theorem test_two_rounds :
    sweep 4 (encodeFn 4 [tableOf [1, 2, 3, 0, 3, 1, 0, 2], tableOf [0, 3, 3, 1, 2, 2, 1, 0]])
      = [some 5, some 7, some 14, some 1, some 10, some 2, some 12, some 0, some 8, some 15, some 4, some 9, some 3,
        some 6, some 13, some 11]
    ∧ encodeFn 4 [tableOf [0, 3, 3, 1, 2, 2, 1, 0], tableOf [1, 2, 3, 0, 3, 1, 0, 2]] 0 = some 8
    ∧ encodeFn 4 [tableOf [0, 3, 3, 1, 2, 2, 1, 0], tableOf [1, 2, 3, 0, 3, 1, 0, 2]] 15 = some 15 := by decide

/-- K-0: the first words of `SM64` from state 42. -/
theorem test_mix64 :
    mix64 (42 + gamma) = 0xBDD732262FEB6E95 ∧ mix64 (42 + gamma + gamma) = 0x28EFE333B266F103 := by decide +kernel

/-- K-3: small schedules, the seed at the top of its range among them. -/
theorem test_schedules :
    ksg sm64 2 0 1 = [[1, 0, 0, 1]] ∧ ksg sm64 2 7 3 = [[0, 0, 1, 1], [0, 0, 0, 0], [0, 0, 0, 1]]
    ∧ ksg sm64 4 1 1 = [[2, 2, 3, 1, 1, 3, 3, 2]] ∧ ksg sm64 2 0xFFFFFFFFFFFFFFFF 1 = [[1, 1, 0, 0]] := by
  decide +kernel

/-- T-5 through T-4's tables: the source's scenario (S-7) at 17, and the round trip back. -/
theorem test_concrete_scenario :
    encodeFn 8 ((ksg sm64 8 42 5).map tableOf) 17 = some 244
    ∧ decodeFn 8 ((ksg sm64 8 42 5).map tableOf) 244 = some 17
    ∧ decodeFn 8 ((ksg sm64 8 43 5).map tableOf) 244 = some 24 := by decide +kernel

/-! ### Witnesses: states and operands that meet the hypotheses of the statements -/

/-- Two admissible engines at the ends of the ranges of R6. -/
def smallest : Config := { bMax := 2, rMax := 1, prng := .sm64 }

/-- The largest engine. -/
def largest : Config := { bMax := 64, rMax := 255, prng := .other 0 }

theorem witness_admissible : smallest.Admissible ∧ largest.Admissible ∧ Config.default.Admissible := by decide

/-- The states the witnesses below use meet the invariant. -/
theorem witness_inv :
    State.reset.Inv ∧ ready2.Inv ∧ ready4.Inv ∧ loading4.Inv ∧ loading4full.Inv ∧ loading2.Inv ∧ loading2one.Inv
    ∧ (withOneRound loading2one).Inv :=
  ⟨by decide, by decide, by decide, by decide, by decide, by decide, by decide, by decide⟩

/-- DecodeAndEncodeAreInverse: words that decode, one with every operand bit set. -/
theorem witness_DecodeAndEncodeAreInverse :
    decode 0xFFFFFFFFFFFFFFFF00FFFF01 = .ok (.init 255 255 0xFFFFFFFFFFFFFFFF)
    ∧ decode 0xFFFFFFFFFFFFFFFF0000FF08 = .ok (.rdt 255 0xFFFFFFFFFFFFFFFF) := by decide

/-- OpcodeTableRowsMatchTheDecoder: a row, the first and the last. -/
theorem witness_OpcodeTableRowsMatchTheDecoder :
    ⟨"INIT", 0x1, 0x0000000000000000FF0000FF⟩ ∈ opcodeRows ∧ ⟨"RST", 0xA, 0xFFFFFFFFFFFFFFFFFFFFFFFF⟩ ∈ opcodeRows := by
  decide

/-- AssembledInitCarriesItsOperands: the ends of the three ranges, and values just outside them. -/
theorem witness_AssembledInitCarriesItsOperands :
    ((0 : Int) ≤ 255 ∧ (255 : Int) < 256 ∧ (0 : Int) ≤ 2 ^ 64 - 1 ∧ (2 : Int) ^ 64 - 1 < 2 ^ 64)
    ∧ (-1 : Int) < 0 ∧ (256 : Int) ≤ 256 ∧ (2 : Int) ^ 64 ≤ 2 ^ 64 := by decide

/-- LoadExpandsToItsCommands: the ends of the ranges. -/
theorem witness_LoadExpandsToItsCommands :
    (0 : Int) ≤ 255 ∧ (255 : Int) < 256
    ∧ ∀ t ∈ ([[0, 2 ^ 64 - 1], []] : List (List Int)), ∀ v ∈ t, 0 ≤ v ∧ v < 2 ^ 64 := by decide

/-- A state whose port holds one event. -/
def withEvent (s : State) (e : HostEvent) : State := { s with inputs := [e] }

/-- StepRunsTheDecodedCommand, EveryCommandWordGetsOneResponse: a legal word waiting, and nothing waiting. -/
theorem witness_StepRunsTheDecodedCommand :
    (withEvent ready4 (.command 0x000000000000001100000006)).inputs = .command 0x000000000000001100000006 :: []
    ∧ decode 0x000000000000001100000006 = .ok (.enc 17) ∧ State.reset.inputs = []
    ∧ (withEvent ready4 (.command 0x000000000000001100000006)).Inv := by decide

/-- IllegalWordIsAnsweredWithoutEffect, EveryCommandWordGetsOneResponse: an illegal word waiting. -/
theorem witness_IllegalWordIsAnsweredWithoutEffect :
    (withEvent loading2 (.command 0x000000000000000100000103)).inputs = .command 0x000000000000000100000103 :: []
    ∧ (fieldsOf 0x000000000000000100000103).legal = false
    ∧ (withEvent loading2 (.command 0x000000000000000100000103)).Inv := by decide

/-- HardwareResetDiscardsTheCommand, RstDestroysTheCipher, PhaseTransitionsAreThoseOfTheTable: a reset waiting, alone and inside
a command. -/
theorem witness_HardwareResetDiscardsTheCommand :
    (withEvent ready4 (.reset none)).inputs = .reset none :: []
    ∧ (withEvent loading2 (.reset (some 0x4))).inputs = .reset (some 0x4) :: []
    ∧ ∃ t, step (withEvent ready4 (.reset none)) = .next t := ⟨rfl, rfl, _, rfl⟩

/-- EveryStepKeepsResponsesLegal, NoStepChangesTheParameters, WfHoldsAfterResetAndIsKept, EveryStepKeepsTheInvariant: a step that
answers next, from a state that meets the invariant and has emitted a legal response. -/
theorem witness_EveryStepKeepsTheInvariant :
    (∃ t, step { withEvent loading2 (.command 0x000000000000000100000003) with rsps := [0x4] } = .next t)
    ∧ State.Inv { withEvent loading2 (.command 0x000000000000000100000003) with rsps := [0x4] }
    ∧ ∀ w ∈ ([0x4] : List PortWord), legalResponse w = true :=
  ⟨⟨_, rfl⟩, by decide, by simp; decide⟩

/-- RunAnswersEveryCommandWord: an illegal and a legal word waiting, nothing else. -/
theorem witness_RunAnswersEveryCommandWord :
    State.Inv { ready2 with inputs := ([0xB, 0x9] : List PortWord).map .command } := by decide

/-- PhaseTransitionsAreThoseOfTheTable, the causes of each status, FailedCommandLeavesNoPartialState: every command with every
status it can answer. The commands that begin a construction. -/
theorem witness_statuses_begin :
    answers (.init 2 3 7) State.reset .ok = true ∧ answers (.init 3 5 0) State.reset .config = true
    ∧ answers (.init 8 17 0) State.reset .cap = true ∧ answers (.init 2 3 7) ready2 .seq = true
    ∧ answers (.ldcfg 16) State.reset .ok = true ∧ answers (.ldcfg 1) State.reset .config = true
    ∧ answers (.ldcfg 18) State.reset .cap = true ∧ answers (.ldcfg 2) loading2 .seq = true := by
  decide +kernel

/-- The same for the steps of a load. -/
theorem witness_statuses_load :
    answers (.ldent 3) loading4 .ok = true ∧ answers (.ldent 4) loading4 .config = true
    ∧ answers (.ldent 1) (withOneRound loading2one) .cap = true ∧ answers (.ldent 0) State.reset .seq = true
    ∧ answers .ldend loading4full .ok = true ∧ answers .ldend loading2 .config = true ∧ answers .ldend ready2 .seq = true
    ∧ answers .sealLoad loading2one .ok = true ∧ answers .sealLoad loading2 .config = true
    ∧ answers .sealLoad State.reset .seq = true := by decide

/-- The same for the commands that use a cipher, and for control. -/
theorem witness_statuses_use :
    answers (.enc 3) ready2 .ok = true ∧ answers (.enc 4) ready2 .domain = true ∧ answers (.enc 0) loading2 .seq = true
    ∧ answers (.dec 3) ready2 .ok = true ∧ answers (.dec 4) ready2 .domain = true ∧ answers (.dec 0) State.reset .seq = true
    ∧ answers (.rdt 0 3) ready2 .ok = true ∧ answers (.rdt 0 4) ready2 .index = true
    ∧ answers (.rdt 1 0) ready2 .index = true ∧ answers (.rdt 0 0) loading2 .seq = true
    ∧ answers .stat loading2 .ok = true ∧ answers .rst ready2 .ok = true := by decide

/-- The same as a state that `exec` answers, in the form of the statements. -/
theorem witness_FailedCommandLeavesNoPartialState :
    (∃ t, exec (.ldent 4) loading4 = .next t ∧ t.lastStatusIs .config = true)
    ∧ (∃ t, exec (.enc 4) ready2 = .next t ∧ t.lastStatusIs .domain = true)
    ∧ ∀ i : Instr, decode 0x0 ≠ .ok i :=
  ⟨exists_of_answers (by decide), exists_of_answers (by decide), fun i h => by
    rw [show decode 0x0 = .error .reservedOpcode by decide] at h; cases h⟩

/-- ReadyCipherIsImmutable: a construction command and a reading one in `READY`. -/
theorem witness_ReadyCipherIsImmutable :
    ready2.phase = .ready ∧ (Instr.ldend ≠ .rst ∧ readOnly .ldend = false) ∧ readOnly (.enc 0) = true
    ∧ (∃ t, exec .ldend ready2 = .next t) ∧ ∃ t, exec (.enc 0) ready2 = .next t :=
  ⟨rfl, by decide, rfl, ⟨_, rfl⟩, _, rfl⟩

/-- SeqExactlyWhenPhaseForbids: both answers of the table, in each phase. -/
theorem witness_SeqExactlyWhenPhaseForbids :
    allowed (.enc 0) .empty = false ∧ allowed (.init 2 1 0) .loading = false ∧ allowed .sealLoad .ready = false
    ∧ allowed (.init 2 1 0) .empty = true ∧ allowed .ldend .loading = true ∧ allowed (.rdt 0 0) .ready = true := by decide

/-- StreamAfterAnAbortAnswersSeq: the rest of a load in `EMPTY`. -/
theorem witness_StreamAfterAnAbortAnswersSeq :
    State.reset.phase = .empty ∧ ∀ i ∈ [Instr.ldent 1, .ldend, .sealLoad], loadStep i = true := by decide

/-- A generator that meets law 2: it counts. -/
def counter : Prng where
  S := Nat
  init := BitVec.toNat
  draw := fun s h => (s % 2 ^ h, s + 1)

/-- ScheduleHasItsShapeAndRange: a generator that meets law 2, and a table of its schedule. -/
theorem witness_ScheduleHasItsShapeAndRange :
    counter.InRange ∧ [0, 1, 0, 1] ∈ ksg counter 2 0 1 := by
  refine ⟨fun s h => ?_, by decide⟩
  exact Nat.mod_lt s (Nat.pow_pos (by decide))

/-- EntryIsTheDrawOfItsNumber, ClosedFormOfTheDefaultSchedule: the last entry of the last table of `ksg(4, ., 2)`. -/
theorem witness_EntryIsTheDrawOfItsNumber : 1 < 2 ∧ 7 < tlen 4 ∧ 2 ≤ 2 := by decide

/-- InitBuildsTheCipher, each clause: a cipher in the way; an odd size and no rounds; either capacity passed; both at capacity. -/
theorem witness_InitBuildsTheCipher :
    State.reset.cfg.Admissible ∧ ready2.phase ≠ .empty ∧ State.reset.phase = .empty
    ∧ (validBitSize 17 && validRounds 200) = false ∧ (validBitSize 18 && validRounds 0) = false
    ∧ (validBitSize 18 = true ∧ validRounds 5 = true ∧ Config.default.bMax < 18)
    ∧ (validBitSize 8 = true ∧ validRounds 17 = true ∧ Config.default.rMax < 17)
    ∧ (validBitSize 16 = true ∧ validRounds 16 = true ∧ 16 ≤ Config.default.bMax ∧ 16 ≤ Config.default.rMax) := by decide

/-- ReinitForgetsTheFirstSeed, LoadedScheduleEqualsInit, LoadOfValidTablesBuildsTheCipher: an empty engine and valid configurations that
fit; the tables of `INIT 2, 7, 3` as entries of a load. -/
theorem witness_LoadedScheduleEqualsInit :
    State.reset.Inv ∧ (State.reset.phase = .empty ∧ validBitSize 2 = true ∧ validRounds 3 = true)
    ∧ (2 ≤ State.reset.cfg.bMax ∧ 3 ≤ State.reset.cfg.rMax ∧ validBitSize 16 = true ∧ validRounds 16 = true)
    ∧ tablesToNat [[0, 0, 1, 1], [0, 0, 0, 0], [0, 0, 0, 1]] = ksg sm64 2 7 3
    ∧ validTables 2 (tablesToNat [[0, 0, 1, 1], [0, 0, 0, 0], [0, 0, 0, 1]]) = true :=
  ⟨by decide, by decide, by decide, by decide +kernel, by decide⟩

/-- RejectedLoadLeavesTheEngineEmpty: no table, a size beyond `B_MAX`, and a second table with `R_MAX = 1`. -/
theorem witness_RejectedLoadLeavesTheEngineEmpty :
    validTables 2 (tablesToNat []) = false ∧ ¬ (18 ≤ State.reset.cfg.bMax)
    ∧ (withOneRound State.reset).Inv ∧ (withOneRound State.reset).phase = .empty
    ∧ ¬ (2 ≤ (withOneRound State.reset).cfg.rMax) := by decide

/-- OnlyInitUsesTheGenerator: a command that is not `INIT`. -/
theorem witness_OnlyInitUsesTheGenerator : ∀ a b d, Instr.stat ≠ .init a b d := fun _ _ _ h => by cases h

/-- LdcfgBeginsALoad, each clause at the ends of its range. -/
theorem witness_LdcfgBeginsALoad :
    ready2.phase ≠ .empty ∧ State.reset.phase = .empty ∧ (255 : Nat) % 2 = 1 ∧ 0 < 2
    ∧ (18 % 2 = 0 ∧ 2 ≤ 18 ∧ State.reset.cfg.bMax < 18)
    ∧ (2 % 2 = 0 ∧ 2 ≤ State.reset.cfg.bMax) ∧ (16 % 2 = 0 ∧ 2 ≤ 16 ∧ 16 ≤ State.reset.cfg.bMax) := by decide

/-- LdentAppendsOneEntry, each clause: no load; a full table; the entry `MAXS`; a further table beyond `R_MAX`; the entry `MAXS - 1`. -/
theorem witness_LdentAppendsOneEntry :
    State.reset.phase ≠ .loading
    ∧ (loading4full.phase = .loading ∧ tlen loading4full.bitsz.toNat ≤ loading4full.wptr.toNat)
    ∧ (loading4.phase = .loading ∧ maxs loading4.bitsz.toNat ≤ 4)
    ∧ ((withOneRound loading2one).phase = .loading ∧ (withOneRound loading2one).wptr.toNat < tlen 2 ∧ 1 < maxs 2
      ∧ (withOneRound loading2one).cfg.rMax ≤ (withOneRound loading2one).rounds.toNat)
    ∧ (loading4.wptr.toNat < tlen loading4.bitsz.toNat ∧ 3 < maxs loading4.bitsz.toNat
      ∧ loading4.rounds.toNat < loading4.cfg.rMax) := by decide

/-- LdendClosesTheTable, each clause. -/
theorem witness_LdendClosesTheTable :
    ready2.phase ≠ .loading ∧ (loading2.phase = .loading ∧ loading2.wptr.toNat ≠ tlen loading2.bitsz.toNat)
    ∧ (loading4full.phase = .loading ∧ loading4full.wptr.toNat = tlen loading4full.bitsz.toNat) := by decide

/-- SealFinishesTheLoad, each clause: an unended table, no table, one table. -/
theorem witness_SealFinishesTheLoad :
    ready2.phase ≠ .loading ∧ (loading2.phase = .loading ∧ loading2.wptr ≠ 0)
    ∧ (loading4.phase = .loading ∧ loading4.rounds.toNat < 1)
    ∧ (loading2one.phase = .loading ∧ loading2one.wptr = 0 ∧ 1 ≤ loading2one.rounds.toNat) := by decide

/-- ModularStepsAreInverse: the largest operands of `M = 16`, and `M = 1`. -/
theorem witness_ModularStepsAreInverse : 15 < 2 ^ 4 ∧ 0 < 2 ^ 0 := by decide

/-- SplitAndJoinAreInverse, BothReadFormsAreInsideTheTable: the smallest size with its largest values, and size 64. -/
theorem witness_SplitAndJoinAreInverse :
    EvenSize 2 ∧ 3 < 2 ^ 2 ∧ 1 < maxs 2 ∧ EvenSize 64 ∧ 2 ^ 64 - 1 < 2 ^ 64 := by decide

/-- RoundIsInvertible, the laws of section 6 and WrongKeyDecodesIntoTheDomain: the schedule of T-2, and an empty one. -/
theorem witness_valid_schedules :
    EvenSize 4 ∧ ValidTable 4 [1, 2, 3, 0, 3, 1, 0, 2] ∧ ValidSchedule 4 [[1, 2, 3, 0, 3, 1, 0, 2], [0, 3, 3, 1, 2, 2, 1, 0]]
    ∧ ValidSchedule 4 [] ∧ 3 < maxs 4 ∧ 15 < 2 ^ 4 := by decide

/-- DeadCellsDoNotMatter: T-3's two tables differ at index 3 alone, which is `M + h`. -/
theorem witness_DeadCellsDoNotMatter :
    EvenSize 2 ∧ ValidSchedule 2 [[1, 0, 1, 1]] ∧ ValidSchedule 2 [[1, 0, 1, 0]]
    ∧ (∀ (r : Nat) (i : Nat), i < maxs 2 + half 2 →
      (([[1, 0, 1, 1]] : List (List Nat))[r]?.bind (fun t => t[i]?))
        = (([[1, 0, 1, 0]] : List (List Nat))[r]?.bind (fun t => t[i]?))) := by
  refine ⟨by decide, by decide, by decide, fun r i hi => ?_⟩
  have hi : i < 3 := hi
  obtain rfl | rfl | rfl : i = 0 ∨ i = 1 ∨ i = 2 := by omega
  all_goals cases r <;> rfl

/-- EncAnswersTheEncodedValue, DecAnswersTheDecodedValue, DecOfEncAnswersTheValue, EncAnswersAreDistinct,
ReadyEngineHoldsAValidSchedule, ExportAndReimportReproduceTheCipher: an engine that is not `READY`, a value just
outside the domain, the last value inside it. -/
theorem witness_EncAnswersTheEncodedValue :
    loading4.phase ≠ .ready ∧ (ready4.phase = .ready ∧ 2 ^ ready4.bitsz.toNat ≤ 16) ∧ 15 < 2 ^ ready4.bitsz.toNat
    ∧ ready4.Inv ∧ answerOf (.enc 15) ready4 = answerOf (.enc 15) ready4 := by decide

/-- AllZeroTablesAreTheIdentity: T-9. -/
theorem witness_AllZeroTablesAreTheIdentity :
    (engine .ready 2 1 0 [[0, 0, 0, 0]]).Inv ∧ (engine .ready 2 1 0 [[0, 0, 0, 0]]).phase = .ready
    ∧ (∀ c ∈ (engine .ready 2 1 0 [[0, 0, 0, 0]]).rtr, c.2 = 0) ∧ 3 < 2 ^ (engine .ready 2 1 0 [[0, 0, 0, 0]]).bitsz.toNat := by
  decide

/-- RdtAnswersTheCell, each clause: the last round and index inside, and one past each. -/
theorem witness_RdtAnswersTheCell :
    loading4.phase ≠ .ready ∧ ready4.phase = .ready ∧ ready4.rounds.toNat ≤ 2 ∧ tlen ready4.bitsz.toNat ≤ 8
    ∧ 1 < ready4.rounds.toNat ∧ 7 < tlen ready4.bitsz.toNat := by decide

/-- ReadOnlyCommandsDoNotInterfere: reading commands, one of them failing. -/
theorem witness_ReadOnlyCommandsDoNotInterfere :
    ready2.Inv ∧ ready2.phase = .ready ∧ ∀ i ∈ [Instr.enc 3, .dec 4, .rdt 0 0, .stat], readOnly i = true := by decide

end Sys2Proof.Tests
end

section
/-! SUPPORT. Proofs of the family 10_state.md: how `PHASE` moves (R22) and that a finished cipher is immutable (R34). -/

namespace Sys2Proof.Machine

/-! ### What a class of commands can do -/

/-- `PHASE` after a command that succeeds, from `PHASE` before it: the success rows of the table of R22. -/
def successPhase : Instr → Phase → Phase
  | .init .., _ => .ready
  | .ldcfg _, _ => .loading
  | .ldent _, _ => .loading
  | .ldend, _ => .loading
  | .sealLoad, _ => .ready
  | .rst, _ => .empty
  | .enc _, p => p
  | .dec _, p => p
  | .rdt .., p => p
  | .stat, p => p

/-- The commands that begin a construction: `INIT` and `LDCFG`. -/
def begins : Instr → Bool
  | .init .. => true
  | .ldcfg _ => true
  | .ldent _ => false
  | .ldend => false
  | .sealLoad => false
  | .enc _ => false
  | .dec _ => false
  | .rdt .. => false
  | .stat => false
  | .rst => false

/-- A command that the table of R187 does not allow in the phase is answered `SEQ`, with no other effect. -/
theorem exec_of_not_allowed {i : Instr} {s : State} (h : allowed i s.phase = false) :
    exec i s = .next (s.emit .seq 0) := by
  cases i with
  | init | ldcfg | ldent | ldend | sealLoad | enc | dec | rdt => exact if_pos (by simpa [allowed] using h)
  | stat | rst => simp [allowed] at h

/-- A reading command emits a response and does nothing else, whatever the phase (10_state.md R34). -/
theorem exec_readOnly_cases {i : Instr} {s t : State} (hi : readOnly i = true) (h : exec i s = .next t) :
    ∃ st res, t = s.emit st res := by
  cases i with
  | enc d =>
    obtain ⟨-, ht⟩ | ⟨-, -, ht⟩ | ⟨-, -, _, -, ht⟩ := execEnc_cases h <;> exact ⟨_, _, ht⟩
  | dec d =>
    obtain ⟨-, ht⟩ | ⟨-, -, ht⟩ | ⟨-, -, _, -, ht⟩ := execDec_cases h <;> exact ⟨_, _, ht⟩
  | rdt a d =>
    obtain ⟨-, ht⟩ | ⟨-, -, ht⟩ | ⟨-, -, -, _, -, ht⟩ := execRdt_cases h <;> exact ⟨_, _, ht⟩
  | stat => exact ⟨_, _, (Host.Outcome.next.inj h).symm⟩
  | init | ldcfg | ldent | ldend | sealLoad | rst => simp [readOnly] at hi

/-- A command that begins a construction fails with no other effect, or succeeds from `EMPTY`. -/
theorem exec_begins_cases {i : Instr} {s t : State} (hi : begins i = true) (h : exec i s = .next t) :
    (∃ st, st ≠ .ok ∧ t = s.emit st 0)
    ∨ (s.phase = .empty ∧ ∃ u : State, u.phase = successPhase i s.phase ∧ t = u.emit .ok 0) := by
  cases i with
  | init a b d =>
    obtain ⟨-, ht⟩ | ⟨-, -, ht⟩ | ⟨-, -, -, -, ht⟩ | ⟨he, -, -, -, -, _, -, ht⟩ := execInit_cases h
    · exact .inl ⟨_, by decide, ht⟩
    · exact .inl ⟨_, by decide, ht⟩
    · exact .inl ⟨_, by decide, ht⟩
    · exact .inr ⟨he, _, rfl, ht⟩
  | ldcfg a =>
    obtain ⟨-, ht⟩ | ⟨-, -, ht⟩ | ⟨-, -, -, ht⟩ | ⟨he, -, -, ht⟩ := execLdcfg_cases h
    · exact .inl ⟨_, by decide, ht⟩
    · exact .inl ⟨_, by decide, ht⟩
    · exact .inl ⟨_, by decide, ht⟩
    · exact .inr ⟨he, _, rfl, ht⟩
  | ldent | ldend | sealLoad | enc | dec | rdt | stat | rst => simp [begins] at hi

/-- A step of a load is refused outside `LOADING`, aborts the load, or succeeds and moves on (10_state.md R33). -/
theorem exec_loadStep_cases {i : Instr} {s t : State} (hi : loadStep i = true) (h : exec i s = .next t) :
    (s.phase ≠ .loading ∧ t = s.emit .seq 0)
    ∨ (s.phase = .loading ∧ ∃ st, (st = .config ∨ st = .cap) ∧ t = s.abortLoad.emit st 0)
    ∨ (s.phase = .loading ∧ ∃ u : State, u.phase = successPhase i s.phase ∧ t = u.emit .ok 0) := by
  cases i with
  | ldent d =>
    obtain ⟨hp, ht⟩ | ⟨hp, -, ht⟩ | ⟨hp, -, -, -, ht⟩ | ⟨hp, -, -, -, u, hu, ht⟩ := execLdent_cases h
    · exact .inl ⟨hp, ht⟩
    · exact .inr (.inl ⟨hp, _, .inl rfl, ht⟩)
    · exact .inr (.inl ⟨hp, _, .inr rfl, ht⟩)
    · obtain ⟨-, -, rfl⟩ := State.writeCell_eq_some hu
      refine .inr (.inr ⟨hp, _, ?_, ht⟩)
      exact hp
  | ldend =>
    obtain ⟨hp, ht⟩ | ⟨hp, -, ht⟩ | ⟨hp, -, ht⟩ := execLdend_cases h
    · exact .inl ⟨hp, ht⟩
    · exact .inr (.inl ⟨hp, _, .inl rfl, ht⟩)
    · refine .inr (.inr ⟨hp, _, ?_, ht⟩)
      exact hp
  | sealLoad =>
    obtain ⟨hp, ht⟩ | ⟨hp, -, ht⟩ | ⟨hp, -, -, ht⟩ := execSeal_cases h
    · exact .inl ⟨hp, ht⟩
    · exact .inr (.inl ⟨hp, _, .inl rfl, ht⟩)
    · exact .inr (.inr ⟨hp, _, rfl, ht⟩)
  | init | ldcfg | enc | dec | rdt | stat | rst => simp [loadStep] at hi

/-! ### How `PHASE` moves (10_state.md R22) -/

/-- A command that begins a construction moves `PHASE` from `EMPTY` by its success row, and not at all when it fails. -/
theorem phase_of_begins {i : Instr} {s t : State} (hi : begins i = true) (h : exec i s = .next t) :
    (t.lastStatusIs .ok = true → s.phase = .empty ∧ t.phase = successPhase i s.phase)
    ∧ (t.lastStatusIs .ok = false → t.phase = s.phase) := by
  obtain ⟨st, hst, rfl⟩ | ⟨he, u, hu, rfl⟩ := exec_begins_cases hi h
  · simp [hst]
  · simp [he, hu]

/-- A step of a load moves `PHASE` from `LOADING` by its success row, to `EMPTY` when it aborts the load, and not at all
when it is refused with `SEQ`. -/
theorem phase_of_loadStep {i : Instr} {s t : State} (hi : loadStep i = true) (h : exec i s = .next t) :
    (t.lastStatusIs .ok = true → s.phase = .loading ∧ t.phase = successPhase i s.phase)
    ∧ (t.lastStatusIs .config = true ∨ t.lastStatusIs .cap = true → s.phase = .loading ∧ t.phase = .empty)
    ∧ (t.lastStatusIs .seq = true → t.phase = s.phase) := by
  obtain ⟨-, rfl⟩ | ⟨hp, st, rfl | rfl, rfl⟩ | ⟨hp, u, hu, rfl⟩ := exec_loadStep_cases hi h
  · simp
  · simp [hp]
  · simp [hp]
  · simp [hp, hu]

/-- A reading command leaves `PHASE` as it is. -/
theorem phase_of_readOnly {i : Instr} {s t : State} (hi : readOnly i = true) (h : exec i s = .next t) :
    t.phase = s.phase := by
  obtain ⟨_, _, rfl⟩ := exec_readOnly_cases hi h
  rfl

/-- A hardware reset leaves the engine `EMPTY`, whatever it cuts short. -/
theorem phase_of_reset {s t : State} {cut : Option PortWord} {rest : List HostEvent}
    (hi : s.inputs = .reset cut :: rest) (h : step s = .next t) : t.phase = .empty := by
  simp only [step, hi] at h
  exact (Host.Outcome.next.inj h) ▸ rfl

/-- Settles O19: each command's row of the table of R22, from what its class of commands can do. -/
theorem phaseTransitionsAreThoseOfTheTable : Obligations.PhaseTransitionsAreThoseOfTheTable := by
  refine ⟨fun i s t h => ?_, fun _ _ _ _ => phase_of_reset, fun p => by cases p <;> decide⟩
  cases i with
  | init | ldcfg => exact phase_of_begins rfl h
  | ldent | ldend | sealLoad => exact phase_of_loadStep rfl h
  | rst => exact (Host.Outcome.next.inj h) ▸ rfl
  | enc | dec | rdt | stat => exact phase_of_readOnly rfl h

/-! ### Immutability (10_state.md R34) -/

/-- A reading command writes no architectural state. -/
theorem arch_of_readOnly {i : Instr} {s t : State} (hi : readOnly i = true) (h : exec i s = .next t) :
    t.arch = s.arch := by
  obtain ⟨_, _, rfl⟩ := exec_readOnly_cases hi h
  rfl

/-- In `READY` the table of R187 allows no command but the reading ones and `RST`. -/
theorem not_allowed_ready {i : Instr} (hr : i ≠ .rst) (hi : readOnly i = false) : allowed i .ready = false := by
  cases i with
  | init | ldcfg | ldent | ldend | sealLoad => rfl
  | enc | dec | rdt | stat => simp [readOnly] at hi
  | rst => exact absurd rfl hr

/-- A construction command in `READY` is answered `SEQ`, with no other effect. -/
theorem exec_construction_ready {i : Instr} {s : State} (hs : s.phase = .ready) (hr : i ≠ .rst)
    (hi : readOnly i = false) : exec i s = .next (s.emit .seq 0) :=
  exec_of_not_allowed (hs ▸ not_allowed_ready hr hi)

/-- Settles O20: in `READY` a command but `RST` reads only or is refused with `SEQ`, and neither writes state. -/
theorem readyCipherIsImmutable : Obligations.ReadyCipherIsImmutable := by
  refine ⟨fun i s t hs hr h => ?_, fun _ _ => exec_construction_ready, fun _ _ _ => arch_of_readOnly⟩
  cases hi : readOnly i with
  | true => exact arch_of_readOnly hi h
  | false =>
    rw [exec_construction_ready hs hr hi] at h
    exact (Host.Outcome.next.inj h) ▸ rfl

end Sys2Proof.Machine
end

section
/-! SUPPORT. Proofs of the family 30_encoding.md: an illegal word has no effect (R68), and every command word gets one
legal response (R66). -/

namespace Sys2Proof

/-! ### What the decoder accepts (30_encoding.md R63, R71) -/

/-- A command that uses no operand is decoded only from fields without operands. -/
theorem decodeFields.noOperands_eq_ok {f : CmdFields} {i j : Instr} (h : decodeFields.noOperands f i = .ok j) :
    f.a = 0 ∧ f.b = 0 ∧ f.d = 0 ∧ j = i := by
  simp only [decodeFields.noOperands] at h
  split_ifs at h with ha hb hd
  exact ⟨not_not.1 ha, not_not.1 hb, not_not.1 hd, (Except.ok.inj h).symm⟩

/-- Fields with zero reserved fields are decoded only to the command that lays out those very fields. -/
theorem fields_of_decodeFields {f : CmdFields} {i : Instr} (h0 : f.rsv0 = 0) (h1 : f.rsv1 = 0)
    (h : decodeFields f = .ok i) : f = i.fields := by
  obtain ⟨opc, rsv0, a, b, rsv1, d⟩ := f
  obtain rfl : rsv0 = 0 := h0
  obtain rfl : rsv1 = 0 := h1
  unfold decodeFields at h
  split at h
  case h_1 hk =>
    cases h
    simpa [Instr.fields, BitVec.toNat_eq] using hk
  case h_2 hk | h_3 hk | h_6 hk | h_7 hk =>
    split_ifs at h with hx hy
    simp only [not_not] at hx hy
    subst hx hy
    cases h
    simpa [Instr.fields, BitVec.toNat_eq] using hk
  case h_8 hk =>
    split_ifs at h with hb
    simp only [not_not] at hb
    subst hb
    cases h
    simpa [Instr.fields, BitVec.toNat_eq] using hk
  case h_4 hk | h_5 hk | h_9 hk | h_10 hk =>
    obtain ⟨rfl, rfl, rfl, rfl⟩ := decodeFields.noOperands_eq_ok h
    simpa [Instr.fields, BitVec.toNat_eq] using hk
  case h_11 => cases h

/-- A word is decoded only to the command that lays out the word's own fields. -/
theorem fieldsOf_of_decode {w : PortWord} {i : Instr} (h : decode w = .ok i) : fieldsOf w = i.fields := by
  simp only [decode] at h
  split_ifs at h with h0 h1
  exact fields_of_decodeFields (not_not.1 h0) (not_not.1 h1) h

/-- Every command lays out legal fields. -/
theorem Instr.fields_legal (i : Instr) : i.fields.legal = true := by
  cases i with
  | init a b d => exact Laws.LegalFields.init a b d
  | ldcfg a => exact Laws.LegalFields.ldcfg a
  | ldent d => exact Laws.LegalFields.ldent d
  | ldend => exact Laws.LegalFields.ldend
  | sealLoad => exact Laws.LegalFields.sealLoad
  | enc d => exact Laws.LegalFields.enc d
  | dec d => exact Laws.LegalFields.dec d
  | rdt a d => exact Laws.LegalFields.rdt a d
  | stat => exact Laws.LegalFields.stat
  | rst => exact Laws.LegalFields.rst

/-- The decoder rejects a word that R68 calls illegal. -/
theorem decode_of_not_legal {w : PortWord} (h : (fieldsOf w).legal = false) : ∃ r, decode w = .error r := by
  cases hd : decode w with
  | error r => exact ⟨r, rfl⟩
  | ok i => simp [fieldsOf_of_decode hd, i.fields_legal] at h

namespace Machine

/-! ### A step that takes a command word (30_encoding.md R60, R68) -/

theorem step_of_command {s : State} {w : PortWord} {rest : List HostEvent} (h : s.inputs = .command w :: rest) :
    step s = acceptCommand w { s with inputs := rest } := by
  simp [step, h, acceptEvent]

theorem acceptCommand_of_error {w : PortWord} {r : Reject} (h : decode w = .error r) (s : State) :
    acceptCommand w s = .next (s.emit .illegal 0) := by
  simp [acceptCommand, h]

theorem acceptCommand_of_ok {w : PortWord} {i : Instr} (h : decode w = .ok i) (s : State) :
    acceptCommand w s = exec i s := by
  simp [acceptCommand, h]

/-- Settles O10: the decoder rejects the word, and a rejected word is only answered. -/
theorem illegalWordIsAnsweredWithoutEffect : Obligations.IllegalWordIsAnsweredWithoutEffect := by
  intro s w rest hi hw
  obtain ⟨r, hr⟩ := decode_of_not_legal hw
  rw [step_of_command hi, acceptCommand_of_error hr]
  rfl

/-! ### One response (30_encoding.md R66) -/

/-- From `s` to `t` exactly one response was emitted, its result 0 unless its status is `OK`, and no event taken. -/
def Answered (s t : State) : Prop :=
  t.inputs = s.inputs ∧ ∃ st res, t.rsps = s.rsps ++ [packResponse st res] ∧ (st ≠ .ok → res = 0)

/-- An error response, after an effect that leaves the ports alone. -/
theorem answered_error {s u : State} (hi : u.inputs = s.inputs) (hr : u.rsps = s.rsps) (st : Status) :
    Answered s (u.emit st 0) :=
  ⟨hi, st, 0, congrArg (· ++ _) hr, fun _ => rfl⟩

/-- An `OK` response, after an effect that leaves the ports alone. -/
theorem answered_ok {s u : State} (hi : u.inputs = s.inputs) (hr : u.rsps = s.rsps) (res : Data) :
    Answered s (u.emit .ok res) :=
  ⟨hi, .ok, res, congrArg (· ++ _) hr, fun h => absurd rfl h⟩

/-- A command that answers a next state emits exactly one response. -/
theorem answered_of_exec {i : Instr} {s t : State} (h : exec i s = .next t) : Answered s t := by
  cases i with
  | init a b d =>
    obtain ⟨-, rfl⟩ | ⟨-, -, rfl⟩ | ⟨-, -, -, -, rfl⟩ | ⟨-, -, -, -, -, u, hu, rfl⟩ := execInit_cases h
    · exact answered_error rfl rfl _
    · exact answered_error rfl rfl _
    · exact answered_error rfl rfl _
    · obtain ⟨-, rfl⟩ := State.writeTables_eq_some hu
      exact answered_ok rfl rfl _
  | ldcfg a =>
    obtain ⟨-, rfl⟩ | ⟨-, -, rfl⟩ | ⟨-, -, -, rfl⟩ | ⟨-, -, -, rfl⟩ := execLdcfg_cases h
    exacts [answered_error rfl rfl _, answered_error rfl rfl _, answered_error rfl rfl _, answered_ok rfl rfl _]
  | ldent d =>
    obtain ⟨-, rfl⟩ | ⟨-, -, rfl⟩ | ⟨-, -, -, -, rfl⟩ | ⟨-, -, -, -, u, hu, rfl⟩ := execLdent_cases h
    · exact answered_error rfl rfl _
    · exact answered_error rfl rfl _
    · exact answered_error rfl rfl _
    · obtain ⟨-, -, rfl⟩ := State.writeCell_eq_some hu
      exact answered_ok rfl rfl _
  | ldend =>
    obtain ⟨-, rfl⟩ | ⟨-, -, rfl⟩ | ⟨-, -, rfl⟩ := execLdend_cases h
    exacts [answered_error rfl rfl _, answered_error rfl rfl _, answered_ok rfl rfl _]
  | sealLoad =>
    obtain ⟨-, rfl⟩ | ⟨-, -, rfl⟩ | ⟨-, -, -, rfl⟩ := execSeal_cases h
    exacts [answered_error rfl rfl _, answered_error rfl rfl _, answered_ok rfl rfl _]
  | enc d =>
    obtain ⟨-, rfl⟩ | ⟨-, -, rfl⟩ | ⟨-, -, _, -, rfl⟩ := execEnc_cases h
    exacts [answered_error rfl rfl _, answered_error rfl rfl _, answered_ok rfl rfl _]
  | dec d =>
    obtain ⟨-, rfl⟩ | ⟨-, -, rfl⟩ | ⟨-, -, _, -, rfl⟩ := execDec_cases h
    exacts [answered_error rfl rfl _, answered_error rfl rfl _, answered_ok rfl rfl _]
  | rdt a d =>
    obtain ⟨-, rfl⟩ | ⟨-, -, rfl⟩ | ⟨-, -, -, _, -, rfl⟩ := execRdt_cases h
    exacts [answered_error rfl rfl _, answered_error rfl rfl _, answered_ok rfl rfl _]
  | stat => cases h; exact answered_ok rfl rfl _
  | rst => cases h; exact answered_ok rfl rfl _

/-- The layout of R66, of a response word whose result is 0 unless its status is `OK`. -/
theorem packResponse_layout {st : Status} {res : Data} (h : st ≠ .ok → res = 0) :
    (packResponse st res).toNat
        = (stOf (packResponse st res)).toNat + (resOf (packResponse st res)).toNat * 2 ^ 32
      ∧ (stOf (packResponse st res)).toNat ≤ 6 ∧ middleOf (packResponse st res) = 0
      ∧ (stOf (packResponse st res) ≠ 0 → resOf (packResponse st res) = 0) := by
  simp only [stOf_packResponse, middleOf_packResponse, resOf_packResponse]
  refine ⟨packResponse_toNat st res, st.code_le, trivial, fun hst => h ?_⟩
  rintro rfl
  exact hst rfl

/-! ### The tables of `INIT` have room (41_keyschedule.md R101, R102) -/

theorem sm64_inRange : sm64.InRange := by
  intro (s : Data) h
  change (sm64Draw s h).1 < 2 ^ h
  rw [sm64Draw_fst, Nat.shiftRight_eq_div_pow, Nat.div_lt_iff_lt_mul (Nat.two_pow_pos _), ← Nat.pow_add]
  exact lt_of_lt_of_le (BitVec.isLt _) (Nat.pow_le_pow_right (by decide) (by omega))

/-- Every engine's generator meets law 2 of R101. -/
theorem prngOf_inRange (p : PrngChoice) : (prngOf p).InRange := by
  cases p with
  | sm64 => exact sm64_inRange
  | other n => exact fun _ h => Nat.mod_lt _ (Nat.two_pow_pos h)

theorem drawTables_valid {g : Prng} (hg : g.InRange) (b n : Nat) (s : g.S) :
    ValidSchedule b (drawTables g (half b) (tlen b) n s) := by
  induction n generalizing s with
  | zero => exact List.forall_mem_nil _
  | succ n ih =>
    rintro t ht
    simp only [drawTables, List.mem_cons] at ht
    rcases ht with rfl | ht
    · exact ⟨drawTable_length .., drawTable_lt hg _ _ s⟩
    · exact ih _ t ht

theorem ksg_valid {g : Prng} (hg : g.InRange) (b : Nat) (seed : Data) (n : Nat) :
    ValidSchedule b (ksg g b seed n) :=
  drawTables_valid hg b n _

theorem ksg_length (g : Prng) (b : Nat) (seed : Data) (n : Nat) : (ksg g b seed n).length = n :=
  drawTables_length ..

theorem maxs_le_mMax {c : Config} {b : Nat} (h : b ≤ c.bMax) : maxs b ≤ mMax c :=
  Nat.pow_le_pow_right (by decide) (Nat.div_le_div_right h)

theorem tlen_le_lMax {c : Config} {b : Nat} (h : b ≤ c.bMax) : tlen b ≤ lMax c :=
  Nat.mul_le_mul_left 2 (maxs_le_mMax h)

/-- A valid schedule within the capacities has a place for every entry. -/
theorem room_of_validSchedule {c : Config} {b : Nat} {ts : List (List Nat)} (hv : ValidSchedule b ts)
    (hb : b ≤ c.bMax) (hn : ts.length ≤ c.rMax) :
    ∀ e ∈ tableCells 0 ts, cellExists c e.1 = true ∧ e.2 < mMax c := by
  rintro ⟨⟨r, i⟩, v⟩ he
  obtain ⟨t, ht, -, hr, hi, hmem⟩ := mem_tableCells he
  obtain ⟨hlen, hlt⟩ := hv t ht
  have hL := tlen_le_lMax hb
  simp only at hr hi hmem
  exact ⟨(cellExists_iff ..).2 ⟨by omega, by omega⟩, (hlt v hmem).trans_le (maxs_le_mMax hb)⟩

/-! ### The rounds are defined (43_transform.md R143, R144) -/

/-- The table has an entry at every index below the table length of the bit size. -/
def Covers (b : Nat) (t : RoundTable) : Prop := ∀ i < tlen b, ∃ v, t i = some v

/-- Both halves lie below `MAXS`. -/
def HalvesInRange (b : Nat) (p : Halves) : Prop := p.1 < maxs b ∧ p.2 < maxs b

/-- The first read of a round, and of an inverse round the second, is inside the table. -/
theorem Covers.read_half {b : Nat} {t : RoundTable} (ht : Covers b t) {y : Nat} (hy : y < maxs b) :
    ∃ v, t y = some v :=
  ht y (by unfold tlen; omega)

/-- The read at the offset `XOFF` is inside the table, because `half b < 2^(half b)` (20_memory.md R44). -/
theorem Covers.read_xoff {b : Nat} {t : RoundTable} (ht : Covers b t) {x : Nat} (hx : x < maxs b) :
    ∃ v, t (x + xoff b) = some v := by
  have hoff : xoff b < maxs b := Nat.lt_two_pow_self
  exact ht _ (by unfold tlen; omega)

theorem roundFwd_defined {b : Nat} {t : RoundTable} {p : Halves} (ht : Covers b t) (hp : HalvesInRange b p) :
    ∃ q, roundFwd b t p = some q ∧ HalvesInRange b q := by
  obtain ⟨u, hu⟩ := ht.read_half hp.2
  obtain ⟨w, hw⟩ := ht.read_xoff (addm_lt (maxs_pos b) p.1 u)
  exact ⟨_, roundFwd_eq_some.2 ⟨u, w, hu, hw, rfl⟩, addm_lt (maxs_pos b) .., addm_lt (maxs_pos b) ..⟩

theorem roundInv_defined {b : Nat} {t : RoundTable} {p : Halves} (ht : Covers b t) (hp : HalvesInRange b p) :
    ∃ q, roundInv b t p = some q ∧ HalvesInRange b q := by
  obtain ⟨w, hw⟩ := ht.read_xoff hp.1
  obtain ⟨u, hu⟩ := ht.read_half (subm_lt (maxs_pos b) p.2 w)
  exact ⟨_, roundInv_eq_some.2 ⟨w, u, hw, hu, rfl⟩, subm_lt (maxs_pos b) .., subm_lt (maxs_pos b) ..⟩

theorem roundsFwd_defined {b : Nat} {ts : List RoundTable} {p : Halves} (ht : ∀ t ∈ ts, Covers b t)
    (hp : HalvesInRange b p) : ∃ q, roundsFwd b ts p = some q ∧ HalvesInRange b q := by
  induction ts generalizing p with
  | nil => exact ⟨p, rfl, hp⟩
  | cons t ts ih =>
    obtain ⟨ht, hts⟩ := List.forall_mem_cons.1 ht
    obtain ⟨q, hq, hqr⟩ := roundFwd_defined ht hp
    simpa [roundsFwd, hq] using ih hts hqr

theorem roundsInv_defined {b : Nat} {ts : List RoundTable} {p : Halves} (ht : ∀ t ∈ ts, Covers b t)
    (hp : HalvesInRange b p) : ∃ q, roundsInv b ts p = some q ∧ HalvesInRange b q := by
  induction ts with
  | nil => exact ⟨p, rfl, hp⟩
  | cons t ts ih =>
    obtain ⟨ht, hts⟩ := List.forall_mem_cons.1 ht
    obtain ⟨q, hq, hqr⟩ := ih hts
    simpa [roundsInv, hq] using roundInv_defined ht hqr

theorem encodeFn_defined {b : Nat} {ts : List RoundTable} (ht : ∀ t ∈ ts, Covers b t) (v : Nat) :
    ∃ r, encodeFn b ts v = some r := by
  obtain ⟨q, hq, -⟩ := roundsFwd_defined ht (split_lt b v)
  exact ⟨join b q, by simp [encodeFn, hq]⟩

theorem decodeFn_defined {b : Nat} {ts : List RoundTable} (ht : ∀ t ∈ ts, Covers b t) (v : Nat) :
    ∃ r, decodeFn b ts v = some r := by
  obtain ⟨q, hq, -⟩ := roundsInv_defined ht (split_lt b v)
  exact ⟨join b q, by simp [decodeFn, hq]⟩

/-! ### No command faults in a state that meets the invariant (60_exceptions.md R203) -/

/-- The invariant speaks of the architectural state alone. -/
theorem State.Inv.with_inputs {s : State} (h : s.Inv) (rest : List HostEvent) :
    State.Inv { s with inputs := rest } := h

/-- A valid cell holds a value. -/
theorem State.exists_of_validCell {s : State} {r i : Nat} (h : s.validCell r i = true) :
    ∃ v, s.readCell r i = some v := by
  unfold State.validCell at h
  cases hv : s.readCell r i with
  | some v => exact ⟨v, rfl⟩
  | none => simp [hv] at h

/-- In `READY` every cell of the schedule holds a value. -/
theorem State.Inv.readCell_ready {s : State} (h : s.Inv) (hp : s.phase = .ready) {r i : Nat}
    (hr : r < s.rounds.toNat) (hi : i < tlen s.bitsz.toNat) : ∃ v, s.readCell r i = some v := by
  obtain ⟨-, ⟨-, -, -, hready⟩, -, -⟩ := h
  obtain ⟨-, -, -, hcells⟩ := hready hp
  exact State.exists_of_validCell (hcells r hr i hi)

/-- In `READY` every round's table answers the reads of a round. -/
theorem State.Inv.schedule_covers {s : State} (h : s.Inv) (hp : s.phase = .ready) :
    ∀ t ∈ s.schedule, Covers s.bitsz.toNat t := by
  simp only [State.schedule, List.mem_map, List.mem_range]
  rintro _ ⟨r, hr, rfl⟩ i hi
  obtain ⟨v, hv⟩ := h.readCell_ready hp hr hi
  exact ⟨v.toNat, by simp [State.roundTable, hv]⟩

theorem execInit_answers (a b : BitVec 8) (d : Data) (s : State) : ∃ t, execInit a b d s = .next t := by
  unfold execInit
  split_ifs with hphase hvalid hfits
  · exact ⟨_, rfl⟩
  · exact ⟨_, rfl⟩
  · exact ⟨_, rfl⟩
  · simp only [Bool.not_eq_true', Bool.not_eq_false, Bool.and_eq_true, fitsBits_iff, fitsRounds_iff] at hfits
    have hroom := room_of_validSchedule (ksg_valid (prngOf_inRange s.cfg.prng) a.toNat d b.toNat) hfits.1
      ((ksg_length ..).trans_le hfits.2)
    rw [State.writeTables_of_room s _ hroom]
    exact ⟨_, rfl⟩

theorem execLdcfg_answers (a : BitVec 8) (s : State) : ∃ t, execLdcfg a s = .next t := by
  unfold execLdcfg
  split_ifs <;> exact ⟨_, rfl⟩

/-- `LDENT` answers where the bit size fits the engine. -/
theorem execLdent_answers (d : Data) {s : State} (hb : s.phase = .loading → s.bitsz.toNat ≤ s.cfg.bMax) :
    ∃ t, execLdent d s = .next t := by
  unfold execLdent
  split_ifs with hphase hroom hentry htable
  · exact ⟨_, rfl⟩
  · exact ⟨_, rfl⟩
  · exact ⟨_, rfl⟩
  · exact ⟨_, rfl⟩
  · have hb := hb (not_not.1 hphase)
    simp only [Bool.not_eq_true', Bool.not_eq_false, roomInTable_iff, validEntry_iff, roomForTable_iff]
      at hroom hentry htable
    rw [State.writeCell_of_room s htable (hroom.trans_le (tlen_le_lMax hb)) (hentry.trans_le (maxs_le_mMax hb))]
    exact ⟨_, rfl⟩

theorem execLdend_answers (s : State) : ∃ t, execLdend s = .next t := by
  unfold execLdend
  split_ifs <;> exact ⟨_, rfl⟩

theorem execSeal_answers (s : State) : ∃ t, execSeal s = .next t := by
  unfold execSeal
  split_ifs <;> exact ⟨_, rfl⟩

theorem execEnc_answers (d : Data) {s : State} (h : s.Inv) : ∃ t, execEnc d s = .next t := by
  unfold execEnc
  split_ifs with hphase hdom
  · exact ⟨_, rfl⟩
  · exact ⟨_, rfl⟩
  · obtain ⟨v, hv⟩ := encodeFn_defined (h.schedule_covers (not_not.1 hphase)) d.toNat
    rw [hv]
    exact ⟨_, rfl⟩

theorem execDec_answers (d : Data) {s : State} (h : s.Inv) : ∃ t, execDec d s = .next t := by
  unfold execDec
  split_ifs with hphase hdom
  · exact ⟨_, rfl⟩
  · exact ⟨_, rfl⟩
  · obtain ⟨v, hv⟩ := decodeFn_defined (h.schedule_covers (not_not.1 hphase)) d.toNat
    rw [hv]
    exact ⟨_, rfl⟩

theorem execRdt_answers (a : BitVec 8) (d : Data) {s : State} (h : s.Inv) : ∃ t, execRdt a d s = .next t := by
  unfold execRdt
  split_ifs with hphase hindex
  · exact ⟨_, rfl⟩
  · exact ⟨_, rfl⟩
  · simp only [Bool.or_eq_true, decide_eq_true_eq, not_or, not_le] at hindex
    obtain ⟨v, hv⟩ := h.readCell_ready (not_not.1 hphase) hindex.1 hindex.2
    rw [hv]
    exact ⟨_, rfl⟩

/-- Every command answers a next state from a state that meets the invariant. -/
theorem exec_answers (i : Instr) {s : State} (h : s.Inv) : ∃ t, exec i s = .next t := by
  cases i with
  | init a b d => exact execInit_answers a b d s
  | ldcfg a => exact execLdcfg_answers a s
  | ldent d =>
    obtain ⟨-, ⟨-, hsize, -, -⟩, -, -⟩ := h
    exact execLdent_answers d fun hp => (hsize (by simp [hp])).2.2
  | ldend => exact execLdend_answers s
  | sealLoad => exact execSeal_answers s
  | enc d => exact execEnc_answers d h
  | dec d => exact execDec_answers d h
  | rdt a d => exact execRdt_answers a d h
  | stat => exact ⟨_, rfl⟩
  | rst => exact ⟨_, rfl⟩

/-- Any word, legal or not, is answered by exactly one response from a state that meets the invariant. -/
theorem acceptCommand_answered (w : PortWord) {s : State} (h : s.Inv) :
    ∃ t, acceptCommand w s = .next t ∧ Answered s t := by
  cases hd : decode w with
  | error r => exact ⟨_, acceptCommand_of_error hd s, answered_error rfl rfl .illegal⟩
  | ok i =>
    obtain ⟨t, ht⟩ := exec_answers i h
    exact ⟨t, (acceptCommand_of_ok hd s).trans ht, answered_of_exec ht⟩

/-- Settles O12: no command faults under the invariant, and the one response each emits has the layout of R66. -/
theorem everyCommandWordGetsOneResponse : Obligations.EveryCommandWordGetsOneResponse := by
  intro s w rest hs hi
  obtain ⟨t, ht, hin, st, res, hrsps, hres⟩ := acceptCommand_answered w (hs.with_inputs rest)
  exact ⟨t, _, (step_of_command hi).trans ht, hin, hrsps, packResponse_layout hres⟩

end Machine

end Sys2Proof
end

section
/-! SUPPORT. Proofs of the family 41_keyschedule.md: what the store reads after the bulk store of a schedule, and `INIT`, clause by
clause (R106). -/

namespace Sys2Proof.Machine

/-! ### The bulk store of a schedule (41_keyschedule.md R106) -/

/-- The bulk store changes neither the parameters nor the ports. -/
theorem State.writeTables_frame {s u : State} {ts : List (List Nat)} (h : s.writeTables ts = some u) :
    u.cfg = s.cfg ∧ u.inputs = s.inputs ∧ u.rsps = s.rsps := by
  obtain ⟨-, rfl⟩ := State.writeTables_eq_some h
  exact ⟨rfl, rfl, rfl⟩

theorem mem_rowCells_of_entry {r k i v : Nat} {t : List Nat} (h : t[i]? = some v) :
    ((r, k + i), v) ∈ rowCells r k t := by
  induction t generalizing k i with
  | nil => simp at h
  | cons w t ih =>
    cases i with
    | zero =>
      obtain rfl : w = v := by simpa using h
      exact List.mem_cons_self
    | succ i =>
      have := ih (k := k + 1) (by simpa using h)
      rw [Nat.add_right_comm, Nat.add_assoc] at this
      exact List.mem_cons_of_mem _ this

theorem mem_tableCells_of_entry {k r i v : Nat} {ts : List (List Nat)}
    (h : (ts[r]?.bind fun row => row[i]?) = some v) : ((k + r, i), v) ∈ tableCells k ts := by
  induction ts generalizing k r with
  | nil => simp at h
  | cons t ts ih =>
    cases r with
    | zero =>
      have := mem_rowCells_of_entry (r := k) (k := 0) (t := t) (by simpa using h)
      rw [Nat.zero_add] at this
      exact List.mem_append_left _ this
    | succ r =>
      have := ih (k := k + 1) (by simpa using h)
      rw [Nat.add_right_comm, Nat.add_assoc] at this
      exact List.mem_append_right _ this

/-- Reading after the bulk store: the tables' entry where they have one, and every other cell as before. -/
theorem State.readCell_writeTables {s t : State} {ts : List (List Nat)} (hs : s.cfg.Admissible)
    (h : s.writeTables ts = some t) (r i : Nat) :
    (t.readCell r i).map BitVec.toNat
      = (ts[r]?.bind fun row => row[i]?).or ((s.readCell r i).map BitVec.toNat) := by
  obtain ⟨hroom, rfl⟩ := State.writeTables_eq_some h
  simp only [State.readCell, Memory.read_writeAll, read_tableCells, Nat.zero_le, if_true, Nat.sub_zero]
  cases hentry : ts[r]?.bind fun row => row[i]? with
  | none => simp
  | some v =>
    have hmem := mem_tableCells_of_entry (k := 0) hentry
    rw [Nat.zero_add] at hmem
    obtain ⟨hexists, hv⟩ := hroom _ hmem
    have hv32 : v < 2 ^ 32 := hv.trans_le (mMax_le_of_admissible hs)
    simpa [hexists] using hv32

/-- The entries of a valid schedule are those of its live cells. -/
theorem ValidSchedule.entry_isSome_iff {b : Nat} {ts : List (List Nat)} (hv : ValidSchedule b ts) (r i : Nat) :
    (ts[r]?.bind fun row => row[i]?).isSome = true ↔ r < ts.length ∧ i < tlen b := by
  by_cases hr : r < ts.length
  · obtain ⟨hlen, -⟩ := hv _ (List.getElem_mem hr)
    simp [hr, hlen]
  · simp [hr]

/-- Reading after the bulk store of a valid schedule: a live cell holds the schedule's entry, every other cell reads as before. -/
theorem State.readCell_writeTables_valid {s t : State} {b : Nat} {ts : List (List Nat)} (hs : s.cfg.Admissible)
    (hv : ValidSchedule b ts) (h : s.writeTables ts = some t) (r i : Nat) :
    (t.readCell r i).map BitVec.toNat
      = if r < ts.length ∧ i < tlen b then ts[r]?.bind fun row => row[i]?
        else (s.readCell r i).map BitVec.toNat := by
  rw [State.readCell_writeTables hs h]
  split_ifs with hlive
  · exact Option.or_of_isSome ((hv.entry_isSome_iff r i).2 hlive)
  · rw [← hv.entry_isSome_iff, Option.not_isSome_iff_eq_none] at hlive
    rw [hlive, Option.none_or]

/-! ### `INIT`, an equation for each of its checks (41_keyschedule.md R106) -/

section Init

variable {a b : BitVec 8} {d : Data} {s : State}

theorem execInit_of_not_empty (hp : s.phase ≠ .empty) : execInit a b d s = .next (s.emit .seq 0) :=
  if_pos hp

theorem execInit_of_invalid (hp : s.phase = .empty) (hc : (validBitSize a.toNat && validRounds b.toNat) = false) :
    execInit a b d s = .next (s.emit .config 0) := by
  rw [execInit, if_neg (not_not.2 hp), hc]
  rfl

theorem execInit_of_not_fits (hp : s.phase = .empty) (ha : validBitSize a.toNat = true)
    (hb : validRounds b.toNat = true) (hfit : s.cfg.bMax < a.toNat ∨ s.cfg.rMax < b.toNat) :
    execInit a b d s = .next (s.emit .cap 0) := by
  have hcap : (fitsBits s.cfg a.toNat && fitsRounds s.cfg b.toNat) = false := by
    simpa only [Bool.and_eq_false_iff, fitsBits_false_iff, fitsRounds_false_iff, not_le] using hfit
  rw [execInit, if_neg (not_not.2 hp), ha, hb, hcap]
  rfl

/-- With every check passed, `INIT` stores the schedule and completes. -/
theorem execInit_of_fits (hp : s.phase = .empty) (ha : validBitSize a.toNat = true)
    (hb : validRounds b.toNat = true) (hbits : a.toNat ≤ s.cfg.bMax) (hrounds : b.toNat ≤ s.cfg.rMax) :
    ∃ u, s.writeTables (ksg (prngOf s.cfg.prng) a.toNat d b.toNat) = some u
      ∧ execInit a b d s
        = .next (State.emit { u with phase := .ready, bitsz := a, rounds := b, wptr := 0 } .ok 0) := by
  obtain ⟨t, ht⟩ := execInit_answers a b d s
  obtain ⟨hne, -⟩ | ⟨-, hinvalid, -⟩ | ⟨-, -, -, hcap, -⟩ | ⟨-, -, -, -, -, u, hu, rfl⟩ := execInit_cases ht
  · exact absurd hp hne
  · exact absurd ⟨ha, hb⟩ hinvalid
  · exact absurd ⟨hbits, hrounds⟩ hcap
  · exact ⟨u, hu, ht⟩

end Init

/-- Settles O30: an equation for each failing check, and after success the cells of the bulk store of a valid schedule. -/
theorem initBuildsTheCipher : Obligations.InitBuildsTheCipher := by
  intro s a b d hs
  refine ⟨execInit_of_not_empty, execInit_of_invalid, execInit_of_not_fits, fun hp ha hb hbits hrounds => ?_⟩
  obtain ⟨u, hu, hexec⟩ := execInit_of_fits (d := d) hp ha hb hbits hrounds
  obtain ⟨hcfg, hinputs, hrsps⟩ := State.writeTables_frame hu
  have hvalid := ksg_valid (prngOf_inRange s.cfg.prng) a.toNat d b.toNat
  have hcells := State.readCell_writeTables_valid hs hvalid hu
  rw [ksg_length] at hcells
  exact ⟨_, hexec, rfl, rfl, rfl, rfl, hcfg, hinputs, congrArg (· ++ _) hrsps, hcells⟩

end Sys2Proof.Machine
end

section
/-! SUPPORT. Proofs of the family 42_table_load.md: an equation for each check of `LDCFG`, `LDENT` and `SEAL` (R120, R121, R123),
and that `LDENT` appends one entry. -/

namespace Sys2Proof.Machine

/-! ### `LDCFG`, an equation for each of its checks (42_table_load.md R120) -/

section Ldcfg

variable {a : BitVec 8} {s : State}

theorem execLdcfg_of_not_empty (hp : s.phase ≠ .empty) : execLdcfg a s = .next (s.emit .seq 0) :=
  if_pos hp

theorem execLdcfg_of_invalid (hp : s.phase = .empty) (ha : validBitSize a.toNat = false) :
    execLdcfg a s = .next (s.emit .config 0) := by
  rw [execLdcfg, if_neg (not_not.2 hp), ha]
  rfl

theorem execLdcfg_of_not_fits (hp : s.phase = .empty) (ha : validBitSize a.toNat = true)
    (hfit : s.cfg.bMax < a.toNat) : execLdcfg a s = .next (s.emit .cap 0) := by
  rw [execLdcfg, if_neg (not_not.2 hp), ha, (fitsBits_false_iff ..).2 hfit.not_ge]
  rfl

theorem execLdcfg_of_fits (hp : s.phase = .empty) (ha : validBitSize a.toNat = true) (hfit : a.toNat ≤ s.cfg.bMax) :
    execLdcfg a s = .next (State.emit { s with phase := .loading, bitsz := a, rounds := 0, wptr := 0 } .ok 0) := by
  rw [execLdcfg, if_neg (not_not.2 hp), ha, (fitsBits_iff ..).2 hfit]
  rfl

end Ldcfg

/-- Settles O33: one equation for each check of `LDCFG`, the sizes read through `valid_bit_size`. -/
theorem ldcfgBeginsALoad : Obligations.LdcfgBeginsALoad := by
  intro s a
  refine ⟨execLdcfg_of_not_empty, fun hp hodd => execLdcfg_of_invalid hp ?_,
    fun hp heven htwo => execLdcfg_of_not_fits hp ?_, fun hp heven htwo => execLdcfg_of_fits hp ?_⟩
  · rw [validBitSize_false_iff]
    omega
  · exact (validBitSize_iff _).2 ⟨heven, htwo⟩
  · exact (validBitSize_iff _).2 ⟨heven, htwo⟩

/-! ### What the invariant says of an open load (10_state.md R29) -/

/-- A bit size that fits an admissible engine leaves `WPTR` room to count a whole table. -/
theorem tlen_lt_pointer {c : Config} {b : Nat} (hc : c.Admissible) (hb : b ≤ c.bMax) : tlen b < 2 ^ 34 :=
  calc tlen b ≤ 2 * mMax c := tlen_le_lMax hb
    _ ≤ 2 * 2 ^ 32 := Nat.mul_le_mul_left 2 (mMax_le_of_admissible hc)
    _ < 2 ^ 34 := by decide

/-- In `LOADING` the bit size fits the engine. -/
theorem State.Inv.bitsz_le_bMax {s : State} (h : s.Inv) (hp : s.phase = .loading) : s.bitsz.toNat ≤ s.cfg.bMax := by
  obtain ⟨-, ⟨-, hbitsz, -, -⟩, -, -⟩ := h
  exact (hbitsz (by simp [hp])).2.2

/-- Where the open table has room, `WPTR` counts one more entry without wrapping. -/
theorem State.Inv.toNat_wptr_succ {s : State} (h : s.Inv) (hp : s.phase = .loading)
    (hroom : s.wptr.toNat < tlen s.bitsz.toNat) : (s.wptr + 1).toNat = s.wptr.toNat + 1 :=
  BitVec.toNat_add_of_lt (lt_of_le_of_lt hroom (tlen_lt_pointer h.1 (h.bitsz_le_bMax hp)))

/-! ### `LDENT`, an equation for each of its checks (42_table_load.md R121) -/

section Ldent

variable {d : Data} {s : State}

theorem execLdent_of_not_loading (hp : s.phase ≠ .loading) : execLdent d s = .next (s.emit .seq 0) :=
  if_pos hp

/-- A full table and an entry out of range abandon the load alike. -/
theorem execLdent_of_invalid (hp : s.phase = .loading)
    (h : tlen s.bitsz.toNat ≤ s.wptr.toNat ∨ maxs s.bitsz.toNat ≤ d.toNat) :
    execLdent d s = .next (s.abortLoad.emit .config 0) := by
  rw [execLdent, if_neg (not_not.2 hp)]
  by_cases hroom : s.wptr.toNat < tlen s.bitsz.toNat
  · have hentry : maxs s.bitsz.toNat ≤ d.toNat := h.resolve_left hroom.not_ge
    rw [(roomInTable_iff ..).2 hroom, (validEntry_false_iff ..).2 hentry.not_gt]
    rfl
  · rw [(roomInTable_false_iff ..).2 hroom]
    rfl

theorem execLdent_of_not_fits (hp : s.phase = .loading) (hroom : s.wptr.toNat < tlen s.bitsz.toNat)
    (hentry : d.toNat < maxs s.bitsz.toNat) (htable : s.cfg.rMax ≤ s.rounds.toNat) :
    execLdent d s = .next (s.abortLoad.emit .cap 0) := by
  rw [execLdent, if_neg (not_not.2 hp), (roomInTable_iff ..).2 hroom, (validEntry_iff ..).2 hentry,
    (roomForTable_false_iff ..).2 htable.not_gt]
  rfl

/-- With every check passed and a bit size that fits the engine, `LDENT` stores the entry and completes. -/
theorem execLdent_of_fits (hp : s.phase = .loading) (hb : s.bitsz.toNat ≤ s.cfg.bMax)
    (hroom : s.wptr.toNat < tlen s.bitsz.toNat) (hentry : d.toNat < maxs s.bitsz.toNat)
    (htable : s.rounds.toNat < s.cfg.rMax) :
    ∃ u, s.writeCell s.rounds.toNat s.wptr.toNat d.toNat = some u
      ∧ execLdent d s = .next (State.emit { u with wptr := u.wptr + 1 } .ok 0) := by
  have hstore := State.writeCell_of_room s htable (hroom.trans_le (tlen_le_lMax hb))
    (hentry.trans_le (maxs_le_mMax hb))
  refine ⟨_, hstore, ?_⟩
  rw [execLdent, if_neg (not_not.2 hp), (roomInTable_iff ..).2 hroom, (validEntry_iff ..).2 hentry,
    (roomForTable_iff ..).2 htable, hstore]
  rfl

end Ldent

/-- Settles O34: an equation for each failing check, and after success what reads after the store of one cell answer. -/
theorem ldentAppendsOneEntry : Obligations.LdentAppendsOneEntry := by
  intro s d hs
  refine ⟨execLdent_of_not_loading, execLdent_of_invalid, execLdent_of_not_fits,
    fun hp hroom hentry htable => ?_⟩
  have hb := hs.bitsz_le_bMax hp
  obtain ⟨u, hu, hexec⟩ := execLdent_of_fits hp hb hroom hentry htable
  have hcells := State.readCell_writeCell hs.1 hu
  obtain ⟨-, -, rfl⟩ := State.writeCell_eq_some hu
  exact ⟨_, hexec, hp, rfl, rfl, hs.toNat_wptr_succ hp hroom, rfl, rfl, rfl, hcells⟩

/-! ### `SEAL`, an equation for each of its checks (42_table_load.md R123) -/

section Seal

variable {s : State}

theorem execSeal_of_not_loading (hp : s.phase ≠ .loading) : execSeal s = .next (s.emit .seq 0) :=
  if_pos hp

/-- A table still open and a load without a table abandon the load alike. -/
theorem execSeal_of_invalid (hp : s.phase = .loading) (h : s.wptr ≠ 0 ∨ s.rounds.toNat < 1) :
    execSeal s = .next (s.abortLoad.emit .config 0) := by
  rw [execSeal, if_neg (not_not.2 hp)]
  by_cases hw : s.wptr = 0
  · have hrounds : s.rounds.toNat < 1 := h.resolve_left (not_not.2 hw)
    rw [if_neg (not_not.2 hw), (validRounds_false_iff _).2 hrounds.not_ge]
    rfl
  · exact if_pos hw

theorem execSeal_of_closed (hp : s.phase = .loading) (hw : s.wptr = 0) (hrounds : 1 ≤ s.rounds.toNat) :
    execSeal s = .next (State.emit { s with phase := .ready } .ok 0) := by
  rw [execSeal, if_neg (not_not.2 hp), if_neg (not_not.2 hw), (validRounds_iff _).2 hrounds]
  rfl

end Seal

/-- Settles O36: one equation for each check of `SEAL`. -/
theorem sealFinishesTheLoad : Obligations.SealFinishesTheLoad :=
  fun _ => ⟨execSeal_of_not_loading, execSeal_of_invalid, execSeal_of_closed⟩

end Sys2Proof.Machine
end

section
/-! SUPPORT. Proofs of the family 43_transform.md: the modular steps (R141), split and join (R140, R145), and `ENC` and `DEC`, clause
by clause (R148, R149). -/

namespace Sys2Proof.Machine

/-! ### The modular steps (43_transform.md R141) -/

section Steps

variable {m a t : Nat}

/-- A sum of two operands below `m` wraps at most once. -/
theorem addm_eq_ite (ha : a < m) (ht : t < m) : addm m a t = if a + t < m then a + t else a + t - m := by
  unfold addm
  split_ifs with h
  · exact Nat.mod_eq_of_lt h
  · rw [Nat.mod_eq_sub_mod (not_lt.1 h), Nat.mod_eq_of_lt (by omega)]

/-- A difference of two operands below `m` borrows at most once. -/
theorem subm_eq_ite (ha : a < m) (ht : t < m) : subm m a t = if t ≤ a then a - t else a + m - t := by
  unfold subm
  split_ifs with h
  · rw [Int.emod_eq_of_lt (by omega) (by omega)]
    omega
  · rw [← Int.add_emod_right, Int.emod_eq_of_lt (by omega) (by omega)]
    omega

theorem subm_addm (ha : a < m) (ht : t < m) : subm m (addm m a t) t = a := by
  rw [subm_eq_ite (addm_lt (Nat.zero_lt_of_lt ha) a t) ht, addm_eq_ite ha ht]
  split_ifs <;> omega

theorem addm_subm (ha : a < m) (ht : t < m) : addm m (subm m a t) t = a := by
  rw [addm_eq_ite (subm_lt (Nat.zero_lt_of_lt ha) a t) ht, subm_eq_ite ha ht]
  split_ifs <;> omega

end Steps

/-- Settles O40: the two-case forms of sum and difference give the inverse laws. -/
theorem modularStepsAreInverse : Obligations.ModularStepsAreInverse := by
  intro h a t ha ht
  have hm : 0 < 2 ^ h := Nat.two_pow_pos h
  exact ⟨addm_eq_ite ha ht, subm_eq_ite ha ht, addm_lt hm a t, subm_lt hm a t, subm_addm ha ht, addm_subm ha ht⟩

/-! ### Split and join (43_transform.md R140, R145) -/

/-- In the domain the high half is the whole quotient, so the halves give the value back. -/
theorem split_sum {b v : Nat} (hb : EvenSize b) (hv : v < 2 ^ b) :
    (split b v).2 * maxs b + (split b v).1 = v := by
  have hquot : v / maxs b < maxs b := Nat.div_lt_of_lt_mul (hv.trans_eq (dom_eq hb))
  rw [split_eq, Nat.mod_eq_of_lt hquot]
  exact Nat.div_add_mod' v (maxs b)

theorem join_split {b v : Nat} (hb : EvenSize b) (hv : v < 2 ^ b) : join b (split b v) = v :=
  (join_eq _ (split_lt b v).1).trans (split_sum hb hv)

theorem split_join {b : Nat} {p : Halves} (hp : HalvesInRange b p) : split b (join b p) = p := by
  obtain ⟨x, y⟩ := p
  obtain ⟨hx, hy⟩ : x < maxs b ∧ y < maxs b := hp
  have hquot : (y * maxs b + x) / maxs b = y := by
    rw [Nat.add_comm, Nat.add_mul_div_right _ _ (maxs_pos b), Nat.div_eq_of_lt hx, Nat.zero_add]
  rw [join_eq y hx, split_eq, hquot, Nat.mul_add_mod', Nat.mod_eq_of_lt hx, Nat.mod_eq_of_lt hy]

theorem join_lt {b : Nat} {p : Halves} (hb : EvenSize b) (hp : HalvesInRange b p) : join b p < 2 ^ b := by
  obtain ⟨x, y⟩ := p
  obtain ⟨hx, hy⟩ : x < maxs b ∧ y < maxs b := hp
  calc join b (x, y) = y * maxs b + x := join_eq y hx
    _ < (y + 1) * maxs b := by rw [Nat.add_one_mul]; omega
    _ ≤ maxs b * maxs b := Nat.mul_le_mul_right _ hy
    _ = 2 ^ b := (dom_eq hb).symm

/-- Settles O41: split and join as remainder, quotient and sum of base `MAXS`. -/
theorem splitAndJoinAreInverse : Obligations.SplitAndJoinAreInverse := by
  intro b hb
  refine ⟨split_lt b, fun v hv => ⟨(split_sum hb hv).symm, join_split hb hv⟩, fun x hx y hy => ?_⟩
  exact ⟨join_eq y hx, join_lt hb ⟨hx, hy⟩, split_join ⟨hx, hy⟩⟩

/-! ### The transforms answer in the domain (43_transform.md R146, R147) -/

theorem encodeFn_in_domain {b : Nat} {ts : List RoundTable} (hb : EvenSize b) (ht : ∀ t ∈ ts, Covers b t) (v : Nat) :
    ∃ r < 2 ^ b, encodeFn b ts v = some r := by
  obtain ⟨q, hq, hqr⟩ := roundsFwd_defined ht (split_lt b v)
  exact ⟨join b q, join_lt hb hqr, by rw [encodeFn, hq, Option.map_some]⟩

theorem decodeFn_in_domain {b : Nat} {ts : List RoundTable} (hb : EvenSize b) (ht : ∀ t ∈ ts, Covers b t) (v : Nat) :
    ∃ r < 2 ^ b, decodeFn b ts v = some r := by
  obtain ⟨q, hq, hqr⟩ := roundsInv_defined ht (split_lt b v)
  exact ⟨join b q, join_lt hb hqr, by rw [decodeFn, hq, Option.map_some]⟩

/-! ### What the invariant says of a finished cipher (10_state.md R29) -/

theorem State.Inv.evenSize {s : State} (h : s.Inv) (hp : s.phase = .ready) : EvenSize s.bitsz.toNat := by
  obtain ⟨-, ⟨-, hbitsz, -, -⟩, -, -⟩ := h
  obtain ⟨heven, htwo, -⟩ := hbitsz (by simp [hp])
  exact ⟨heven, htwo⟩

/-- Every value of the domain of a finished cipher fits the 64 bits of `RES`. -/
theorem State.Inv.dom_le_data {s : State} (h : s.Inv) (hp : s.phase = .ready) : 2 ^ s.bitsz.toNat ≤ 2 ^ 64 := by
  obtain ⟨⟨-, -, hbMax, -, -⟩, ⟨-, hbitsz, -, -⟩, -, -⟩ := h
  obtain ⟨-, -, hfits⟩ := hbitsz (by simp [hp])
  exact Nat.pow_le_pow_right two_pos (hfits.trans hbMax)

/-- A number of the domain of a finished cipher is a word of `RES`. -/
theorem State.Inv.exists_data {s : State} (h : s.Inv) (hp : s.phase = .ready) {o : Option Nat}
    (ho : ∃ r < 2 ^ s.bitsz.toNat, o = some r) : ∃ v : Data, o = some v.toNat ∧ v.toNat < 2 ^ s.bitsz.toNat := by
  obtain ⟨r, hr, rfl⟩ := ho
  exact ⟨BitVec.ofNatLT r (hr.trans_le (h.dom_le_data hp)), rfl, hr⟩

/-! ### `ENC` and `DEC`, an equation for each of their checks (43_transform.md R148, R149) -/

section EncDec

variable {d : Data} {s : State}

theorem execEnc_of_not_ready (hp : s.phase ≠ .ready) : execEnc d s = .next (s.emit .seq 0) :=
  if_pos hp

theorem execDec_of_not_ready (hp : s.phase ≠ .ready) : execDec d s = .next (s.emit .seq 0) :=
  if_pos hp

theorem execEnc_of_not_inDomain (hp : s.phase = .ready) (hd : 2 ^ s.bitsz.toNat ≤ d.toNat) :
    execEnc d s = .next (s.emit .domain 0) := by
  rw [execEnc, if_neg (not_not.2 hp), (inDomain_false_iff ..).2 hd.not_gt]
  rfl

theorem execDec_of_not_inDomain (hp : s.phase = .ready) (hd : 2 ^ s.bitsz.toNat ≤ d.toNat) :
    execDec d s = .next (s.emit .domain 0) := by
  rw [execDec, if_neg (not_not.2 hp), (inDomain_false_iff ..).2 hd.not_gt]
  rfl

theorem execEnc_of_inDomain {v : Data} (hp : s.phase = .ready) (hd : d.toNat < 2 ^ s.bitsz.toNat)
    (hv : encodeFn s.bitsz.toNat s.schedule d.toNat = some v.toNat) : execEnc d s = .next (s.emit .ok v) := by
  rw [execEnc, if_neg (not_not.2 hp), (inDomain_iff ..).2 hd, hv]
  simp

theorem execDec_of_inDomain {v : Data} (hp : s.phase = .ready) (hd : d.toNat < 2 ^ s.bitsz.toNat)
    (hv : decodeFn s.bitsz.toNat s.schedule d.toNat = some v.toNat) : execDec d s = .next (s.emit .ok v) := by
  rw [execDec, if_neg (not_not.2 hp), (inDomain_iff ..).2 hd, hv]
  simp

end EncDec

/-- Settles O49: one equation for each check of `ENC`; the invariant makes `encode_fn` of the engine's tables a word of the domain. -/
theorem encAnswersTheEncodedValue : Obligations.EncAnswersTheEncodedValue := by
  intro s d hs
  refine ⟨execEnc_of_not_ready, execEnc_of_not_inDomain, fun hp hd => ?_⟩
  obtain ⟨v, hv, hlt⟩ := hs.exists_data hp (encodeFn_in_domain (hs.evenSize hp) (hs.schedule_covers hp) d.toNat)
  exact ⟨v, hv, hlt, execEnc_of_inDomain hp hd hv⟩

/-- Settles O50: one equation for each check of `DEC`; the invariant makes `decode_fn` of the engine's tables a word of the domain. -/
theorem decAnswersTheDecodedValue : Obligations.DecAnswersTheDecodedValue := by
  intro s d hs
  refine ⟨execDec_of_not_ready, execDec_of_not_inDomain, fun hp hd => ?_⟩
  obtain ⟨v, hv, hlt⟩ := hs.exists_data hp (decodeFn_in_domain (hs.evenSize hp) (hs.schedule_covers hp) d.toNat)
  exact ⟨v, hv, hlt, execDec_of_inDomain hp hd hv⟩

end Sys2Proof.Machine
end

section
/-! SUPPORT. Proofs of the family 44_status_control.md: the word that `STAT` answers (R171) and `RST` (R173). -/

namespace Sys2Proof.Machine

/-! ### The fields of the word of `STAT` (44_status_control.md R171) -/

/-- The sum of R171 never wraps: its four summands occupy disjoint bits, 58 in all. -/
theorem statWord_toNat (p : Phase) (bitsz rounds : BitVec 8) (wptr : Pointer) :
    (statWord p bitsz rounds wptr).toNat
      = p.code.toNat + bitsz.toNat * 2 ^ 8 + rounds.toNat * 2 ^ 16 + wptr.toNat * 2 ^ 24 := by
  have hphase := p.code.isLt
  have hbitsz := bitsz.isLt
  have hrounds := rounds.isLt
  have hwptr := wptr.isLt
  simp only [statWord, BitVec.toNat_ofNat]
  exact Nat.mod_eq_of_lt (by omega)

/-- A field of the word of `STAT`, as the number that the bits from `lo` on cut out of the sum of R171. -/
theorem extractLsb'_statWord_eq_iff {p : Phase} {bitsz rounds : BitVec 8} {wptr : Pointer} {lo len : Nat}
    {v : BitVec len} :
    (statWord p bitsz rounds wptr).extractLsb' lo len = v ↔
      (p.code.toNat + bitsz.toNat * 2 ^ 8 + rounds.toNat * 2 ^ 16 + wptr.toNat * 2 ^ 24) / 2 ^ lo % 2 ^ len
        = v.toNat := by
  rw [← BitVec.toNat_inj, BitVec.extractLsb'_toNat, statWord_toNat, Nat.shiftRight_eq_div_pow]

section StatWord

variable (p : Phase) (bitsz rounds : BitVec 8) (wptr : Pointer)

@[simp] theorem statWord_phase_field : (statWord p bitsz rounds wptr).extractLsb' 0 2 = p.code := by
  have hphase := p.code.isLt
  rw [extractLsb'_statWord_eq_iff]
  omega

@[simp] theorem statWord_zero_field : (statWord p bitsz rounds wptr).extractLsb' 2 6 = 0 := by
  have hphase := p.code.isLt
  have hzero : (0 : BitVec 6).toNat = 0 := rfl
  rw [extractLsb'_statWord_eq_iff, hzero]
  omega

@[simp] theorem statWord_bitsz_field : (statWord p bitsz rounds wptr).extractLsb' 8 8 = bitsz := by
  have hphase := p.code.isLt
  have hbitsz := bitsz.isLt
  rw [extractLsb'_statWord_eq_iff]
  omega

@[simp] theorem statWord_rounds_field : (statWord p bitsz rounds wptr).extractLsb' 16 8 = rounds := by
  have hphase := p.code.isLt
  have hbitsz := bitsz.isLt
  have hrounds := rounds.isLt
  rw [extractLsb'_statWord_eq_iff]
  omega

@[simp] theorem statWord_wptr_field : (statWord p bitsz rounds wptr).extractLsb' 24 40 = wptr.setWidth 40 := by
  have hphase := p.code.isLt
  have hbitsz := bitsz.isLt
  have hrounds := rounds.isLt
  have hwptr := wptr.isLt
  rw [extractLsb'_statWord_eq_iff, BitVec.toNat_setWidth]
  omega

end StatWord

/-! ### `STAT` and `RST` as commands -/

theorem exec_stat (s : State) : exec .stat s = .next (s.emit .ok (statWord s.phase s.bitsz s.rounds s.wptr)) :=
  execStat_eq s

theorem exec_rst (s : State) : exec .rst s = .next (s.hardReset.emit .ok 0) :=
  execRst_eq s

/-- Settles O57: `STAT` emits `statWord` of the registers, whose sum does not wrap and whose fields are the registers. -/
theorem statAnswersTheRegisters : Obligations.StatAnswersTheRegisters :=
  fun s => ⟨statWord s.phase s.bitsz s.rounds s.wptr, exec_stat s, statWord_toNat .., statWord_phase_field ..,
    statWord_zero_field .., statWord_bitsz_field .., statWord_rounds_field .., statWord_wptr_field ..⟩

/-! ### `RST` and hardware reset (44_status_control.md R173; 10_state.md R32) -/

/-- The response word of a command that completes without a result is the number 0. -/
theorem packResponse_ok_zero : packResponse .ok 0 = 0 := rfl

/-- Hardware reset leaves the state after reset, but for the ports' histories. -/
theorem State.hardReset_eq_resetOf (s : State) :
    s.hardReset = { State.resetOf s.cfg with inputs := s.inputs, rsps := s.rsps } := rfl

theorem step_of_reset {s : State} {cut : Option PortWord} {rest : List HostEvent} (h : s.inputs = .reset cut :: rest) :
    step s = .next (State.hardReset { s with inputs := rest }) := by
  simp [step, h, acceptEvent, acceptReset]

/-- Settles O58: `RST` and a reset event both leave the state of `hardReset`, which is the state after reset. -/
theorem rstDestroysTheCipher : Obligations.RstDestroysTheCipher := by
  refine fun s cut rest => ⟨?_, fun hi => ⟨_, step_of_reset hi, State.arch_hardReset _⟩⟩
  rw [exec_rst, State.emit, packResponse_ok_zero, State.hardReset_eq_resetOf]

end Sys2Proof.Machine
end

section
/-! SUPPORT. Proofs of the family 60_exceptions.md: which status a command is answered with (R187 to R189), and what a command that
fails leaves (R186). -/

namespace Sys2Proof.Machine

/-! ### The causes of `CONFIG` and `DOMAIN` as the commands check them (60_exceptions.md R188, R189) -/

section Causes

variable {s : State}

theorem configCause_init {a b : BitVec 8} {d : Data} : configCause (.init a b d) s ↔
    s.phase = .empty ∧ ¬ (validBitSize a.toNat = true ∧ validRounds b.toNat = true) := by
  refine and_congr_right fun _ => ?_
  rw [validBitSize_iff, validRounds_iff]
  bv_omega

theorem configCause_ldcfg {a : BitVec 8} :
    configCause (.ldcfg a) s ↔ s.phase = .empty ∧ ¬ validBitSize a.toNat = true := by
  refine and_congr_right fun _ => ?_
  rw [validBitSize_iff]
  bv_omega

theorem configCause_ldent {d : Data} : configCause (.ldent d) s ↔
    s.phase = .loading ∧ ¬ (s.wptr.toNat < tlen s.bitsz.toNat ∧ d.toNat < maxs s.bitsz.toNat) := by
  refine and_congr_right fun _ => ?_
  omega

theorem configCause_sealLoad :
    configCause .sealLoad s ↔ s.phase = .loading ∧ ¬ (s.wptr = 0 ∧ 1 ≤ s.rounds.toNat) := by
  refine and_congr_right fun _ => ?_
  bv_omega

end Causes

/-- The cause of `DOMAIN` (60_exceptions.md R189), command by command. -/
def domainCause : Instr → State → Prop
  | .enc d, s => s.phase = .ready ∧ ¬ d.toNat < 2 ^ s.bitsz.toNat
  | .dec d, s => s.phase = .ready ∧ ¬ d.toNat < 2 ^ s.bitsz.toNat
  | .init .., _ => False
  | .ldcfg _, _ => False
  | .ldent _, _ => False
  | .ldend, _ => False
  | .sealLoad, _ => False
  | .rdt .., _ => False
  | .stat, _ => False
  | .rst, _ => False

/-- The cause of `DOMAIN` in the words of R189. -/
theorem domainCause_iff (i : Instr) (s : State) : domainCause i s ↔
    ∃ d : Data, (i = .enc d ∨ i = .dec d) ∧ s.phase = .ready ∧ 2 ^ s.bitsz.toNat ≤ d.toNat := by
  cases i <;> simp [domainCause]

section Exclusive

variable {i : Instr} {s : State}

theorem allowed_of_configCause (h : configCause i s) : allowed i s.phase = true := by
  cases i with
  | init | ldcfg | ldent | ldend | sealLoad => simp [allowed, h.1]
  | enc | dec | rdt | stat | rst => exact h.elim

theorem allowed_of_domainCause (h : domainCause i s) : allowed i s.phase = true := by
  cases i with
  | enc | dec => simp [allowed, h.1]
  | init | ldcfg | ldent | ldend | sealLoad | rdt | stat | rst => exact h.elim

theorem not_domainCause_of_configCause (h : configCause i s) : ¬ domainCause i s := by
  cases i with
  | init | ldcfg | ldent | ldend | sealLoad => exact id
  | enc | dec | rdt | stat | rst => exact h.elim

end Exclusive

/-! ### The status of a command's answer (60_exceptions.md R187 to R189) -/

/-- Each of `SEQ`, `CONFIG` and `DOMAIN` is the status exactly when its cause holds. -/
structure StatusFits (i : Instr) (s : State) (st : Status) : Prop where
  seq_iff : st = .seq ↔ allowed i s.phase = false
  config_iff : st = .config ↔ configCause i s
  domain_iff : st = .domain ↔ domainCause i s

section StatusFits

variable {i : Instr} {s : State}

theorem statusFits_seq (h : allowed i s.phase = false) : StatusFits i s .seq := by
  have hc : ¬ configCause i s := fun hc => by simp [allowed_of_configCause hc] at h
  have hd : ¬ domainCause i s := fun hd => by simp [allowed_of_domainCause hd] at h
  exact ⟨by simp [h], by simp [hc], by simp [hd]⟩

theorem statusFits_config (h : configCause i s) : StatusFits i s .config :=
  ⟨by simp [allowed_of_configCause h], by simp [h], by simp [not_domainCause_of_configCause h]⟩

theorem statusFits_domain (h : domainCause i s) : StatusFits i s .domain :=
  ⟨by simp [allowed_of_domainCause h], by simp [mt not_domainCause_of_configCause (not_not.2 h)], by simp [h]⟩

/-- Any other status, where none of the three causes holds. -/
theorem statusFits_other {st : Status} (hst : st ≠ .seq ∧ st ≠ .config ∧ st ≠ .domain)
    (ha : allowed i s.phase = true) (hc : ¬ configCause i s) (hd : ¬ domainCause i s) : StatusFits i s st := by
  obtain ⟨hseq, hconfig, hdomain⟩ := hst
  exact ⟨by simp [hseq, ha], by simp [hconfig, hc], by simp [hdomain, hd]⟩

end StatusFits

/-- In the phase that allows it, a command reaches the check of one cause, or passes all checks. -/
theorem exec_statusFits_of_allowed {i : Instr} {s t : State} (ha : allowed i s.phase = true)
    (h : exec i s = .next t) : ∃ u st res, t = State.emit u st res ∧ StatusFits i s st := by
  cases i with
  | init a b d =>
    obtain ⟨hp, -⟩ | ⟨hp, hv, rfl⟩ | ⟨-, ha', hb, -, rfl⟩ | ⟨-, ha', hb, -, -, _, -, rfl⟩ := execInit_cases h
    · simp [allowed, hp] at ha
    · exact ⟨_, _, _, rfl, statusFits_config (configCause_init.2 ⟨hp, hv⟩)⟩
    all_goals
      exact ⟨_, _, _, rfl, statusFits_other (by decide) ha (fun hc => (configCause_init.1 hc).2 ⟨ha', hb⟩) id⟩
  | ldcfg a =>
    obtain ⟨hp, -⟩ | ⟨hp, hv, rfl⟩ | ⟨-, hv, -, rfl⟩ | ⟨-, hv, -, rfl⟩ := execLdcfg_cases h
    · simp [allowed, hp] at ha
    · exact ⟨_, _, _, rfl, statusFits_config (configCause_ldcfg.2 ⟨hp, hv⟩)⟩
    all_goals exact ⟨_, _, _, rfl, statusFits_other (by decide) ha (fun hc => (configCause_ldcfg.1 hc).2 hv) id⟩
  | ldent d =>
    obtain ⟨hp, -⟩ | ⟨hp, hv, rfl⟩ | ⟨-, hroom, hd, -, rfl⟩ | ⟨-, hroom, hd, -, _, -, rfl⟩ := execLdent_cases h
    · simp [allowed, hp] at ha
    · exact ⟨_, _, _, rfl, statusFits_config (configCause_ldent.2 ⟨hp, hv⟩)⟩
    all_goals
      exact ⟨_, _, _, rfl, statusFits_other (by decide) ha (fun hc => (configCause_ldent.1 hc).2 ⟨hroom, hd⟩) id⟩
  | ldend =>
    obtain ⟨hp, -⟩ | ⟨hp, hv, rfl⟩ | ⟨-, hv, rfl⟩ := execLdend_cases h
    · simp [allowed, hp] at ha
    · exact ⟨_, _, _, rfl, statusFits_config ⟨hp, hv⟩⟩
    · exact ⟨_, _, _, rfl, statusFits_other (by decide) ha (fun hc => hc.2 hv) id⟩
  | sealLoad =>
    obtain ⟨hp, -⟩ | ⟨hp, hv, rfl⟩ | ⟨-, hw, hn, rfl⟩ := execSeal_cases h
    · simp [allowed, hp] at ha
    · exact ⟨_, _, _, rfl, statusFits_config (configCause_sealLoad.2 ⟨hp, hv⟩)⟩
    · exact ⟨_, _, _, rfl, statusFits_other (by decide) ha (fun hc => (configCause_sealLoad.1 hc).2 ⟨hw, hn⟩) id⟩
  | enc d =>
    obtain ⟨hp, -⟩ | ⟨hp, hv, rfl⟩ | ⟨-, hv, _, -, rfl⟩ := execEnc_cases h
    · simp [allowed, hp] at ha
    · exact ⟨_, _, _, rfl, statusFits_domain ⟨hp, hv⟩⟩
    · exact ⟨_, _, _, rfl, statusFits_other (by decide) ha id (fun hd => hd.2 hv)⟩
  | dec d =>
    obtain ⟨hp, -⟩ | ⟨hp, hv, rfl⟩ | ⟨-, hv, _, -, rfl⟩ := execDec_cases h
    · simp [allowed, hp] at ha
    · exact ⟨_, _, _, rfl, statusFits_domain ⟨hp, hv⟩⟩
    · exact ⟨_, _, _, rfl, statusFits_other (by decide) ha id (fun hd => hd.2 hv)⟩
  | rdt a d =>
    obtain ⟨hp, -⟩ | ⟨-, -, rfl⟩ | ⟨-, -, -, _, -, rfl⟩ := execRdt_cases h
    · simp [allowed, hp] at ha
    all_goals exact ⟨_, _, _, rfl, statusFits_other (by decide) ha id id⟩
  | stat | rst => exact ⟨_, _, _, (Host.Outcome.next.inj h).symm, statusFits_other (by decide) ha id id⟩

/-- In every phase: a command that its phase forbids is answered `SEQ`, and another by its first failing check. -/
theorem exec_statusFits {i : Instr} {s t : State} (h : exec i s = .next t) :
    ∃ u st res, t = State.emit u st res ∧ StatusFits i s st := by
  cases ha : allowed i s.phase with
  | false =>
    rw [exec_of_not_allowed ha] at h
    exact ⟨s, .seq, 0, (Host.Outcome.next.inj h).symm, statusFits_seq ha⟩
  | true => exact exec_statusFits_of_allowed ha h

/-- The three statuses as the last response shows them. -/
theorem lastStatusIs_iff_cause {i : Instr} {s t : State} (h : exec i s = .next t) :
    (t.lastStatusIs .seq = true ↔ allowed i s.phase = false)
    ∧ (t.lastStatusIs .config = true ↔ configCause i s)
    ∧ (t.lastStatusIs .domain = true ↔ domainCause i s) := by
  obtain ⟨u, st, res, rfl, hfits⟩ := exec_statusFits h
  simp [hfits.seq_iff, hfits.config_iff, hfits.domain_iff]

/-- Settles O21: a forbidden command is refused whatever else it asks, and `SEQ` has no other cause. -/
theorem seqExactlyWhenPhaseForbids : Obligations.SeqExactlyWhenPhaseForbids := by
  refine fun i s => ⟨exec_of_not_allowed, fun ha t h => ?_⟩
  obtain ⟨hseq, -, -⟩ := lastStatusIs_iff_cause h
  rw [Bool.eq_false_iff, Ne, hseq, ha]
  decide

/-- Settles O22: the status of an answer fits its causes. -/
theorem configExactlyForTheListedCauses : Obligations.ConfigExactlyForTheListedCauses := by
  intro i s t h
  obtain ⟨-, hconfig, -⟩ := lastStatusIs_iff_cause h
  exact hconfig

/-- Settles O23: the status of an answer fits its causes, and `domainCause` is the one of R189. -/
theorem domainHasOneCause : Obligations.DomainHasOneCause := by
  intro i s t h
  obtain ⟨-, -, hdomain⟩ := lastStatusIs_iff_cause h
  exact hdomain.trans (domainCause_iff i s)

/-! ### What a failing command leaves (60_exceptions.md R186) -/

/-- Where one response was emitted, the last response's status is that one's. -/
theorem lastStatusIs_of_rsps {s t : State} {st : Status} {res : Data} (h : t.rsps = s.rsps ++ [packResponse st res])
    (st' : Status) : t.lastStatusIs st' = decide (st = st') := by
  rw [← s.lastStatusIs_emit_eq st st' res, State.lastStatusIs, State.lastStatusIs, h, State.emit_rsps]

section Failure

variable {i : Instr} {s t : State} (h : exec i s = .next t) (hfail : t.lastStatusIs .ok = false)
include h hfail

/-- A failing command emits one response, its result 0, and takes no event. -/
theorem response_of_failure : t.inputs = s.inputs
    ∧ ∃ st : Status, st ≠ .ok ∧ t.lastStatusIs st = true ∧ t.rsps = s.rsps ++ [packResponse st 0] := by
  obtain ⟨hinputs, st, res, hrsps, hres⟩ := answered_of_exec h
  have hst : st ≠ .ok := by simpa [lastStatusIs_of_rsps hrsps] using hfail
  obtain rfl := hres hst
  exact ⟨hinputs, st, hst, by simp [lastStatusIs_of_rsps hrsps], hrsps⟩

/-- A failing step of a load leaves the engine as after reset, unless it was refused with `SEQ`. -/
theorem arch_of_loadStep_failure (hi : loadStep i = true) :
    if t.lastStatusIs .config || t.lastStatusIs .cap then t.arch = State.resetOf s.cfg else t.arch = s.arch := by
  obtain ⟨-, rfl⟩ | ⟨-, st, rfl | rfl, rfl⟩ | ⟨-, u, -, rfl⟩ := exec_loadStep_cases hi h
  · simp
  · simp
  · simp
  · simp at hfail

/-- Any other failing command writes no architectural state. -/
theorem arch_of_failure (hi : loadStep i = false) : t.arch = s.arch := by
  cases i with
  | init | ldcfg =>
    obtain ⟨st, -, rfl⟩ | ⟨-, u, -, rfl⟩ := exec_begins_cases rfl h
    · rfl
    · simp at hfail
  | enc | dec | rdt | stat => exact arch_of_readOnly rfl h
  | rst =>
    cases h
    simp at hfail
  | ldent | ldend | sealLoad => simp [loadStep] at hi

end Failure

/-- Settles O25: the one response of a failing command, the state by whether it is a step of a load, and a word that the decoder
rejects. -/
theorem failedCommandLeavesNoPartialState : Obligations.FailedCommandLeavesNoPartialState := by
  refine ⟨fun i s t h hfail => ?_, fun s w rest hi hw => ?_⟩
  · obtain ⟨hinputs, hrsp⟩ := response_of_failure h hfail
    refine ⟨hinputs, hrsp, ?_⟩
    cases hl : loadStep i with
    | true => simpa using arch_of_loadStep_failure h hfail hl
    | false => simpa using arch_of_failure h hfail hl
  · cases hd : decode w with
    | error r =>
      rw [step_of_command hi, acceptCommand_of_error hd]
      rfl
    | ok i => exact absurd hd (hw i)

end Sys2Proof.Machine
end

section
/-! SUPPORT. Proofs of 30_encoding.md: the decoder and the encoder are inverse (R71), what the decoder accepts (R68), and the opcode
table (R71). -/

namespace Sys2Proof

/-! ### Words and their fields (30_encoding.md R62) -/

/-- The sum of R62 never wraps: its six summands occupy disjoint bits, 96 in all. -/
theorem packFields_toNat (f : CmdFields) : (packFields f).toNat
    = f.opc.toNat + f.rsv0.toNat * 2 ^ 4 + f.a.toNat * 2 ^ 8 + f.b.toNat * 2 ^ 16 + f.rsv1.toNat * 2 ^ 24
      + f.d.toNat * 2 ^ 32 := by
  have hopc := f.opc.isLt
  have hrsv0 := f.rsv0.isLt
  have ha := f.a.isLt
  have hb := f.b.isLt
  have hrsv1 := f.rsv1.isLt
  have hd := f.d.isLt
  rw [packFields, BitVec.toNat_ofNat]
  exact Nat.mod_eq_of_lt (by omega)

/-- A field of a packed word, as the number that the bits from `lo` on cut out of the sum of R62. -/
theorem extractLsb'_packFields_eq_iff {f : CmdFields} {lo len : Nat} {v : BitVec len} :
    (packFields f).extractLsb' lo len = v ↔
      (f.opc.toNat + f.rsv0.toNat * 2 ^ 4 + f.a.toNat * 2 ^ 8 + f.b.toNat * 2 ^ 16 + f.rsv1.toNat * 2 ^ 24
        + f.d.toNat * 2 ^ 32) / 2 ^ lo % 2 ^ len = v.toNat := by
  rw [← BitVec.toNat_inj, BitVec.extractLsb'_toNat, packFields_toNat, Nat.shiftRight_eq_div_pow]

theorem fieldsOf_packFields (f : CmdFields) : fieldsOf (packFields f) = f := by
  have hopc := f.opc.isLt
  have hrsv0 := f.rsv0.isLt
  have ha := f.a.isLt
  have hb := f.b.isLt
  have hrsv1 := f.rsv1.isLt
  have hd := f.d.isLt
  rw [fieldsOf, CmdFields.mk.injEq]
  simp only [extractLsb'_packFields_eq_iff]
  refine ⟨?_, ?_, ?_, ?_, ?_, ?_⟩ <;> omega

theorem packFields_fieldsOf (w : PortWord) : packFields (fieldsOf w) = w := by
  have hw := w.isLt
  rw [← BitVec.toNat_inj, packFields_toNat]
  simp only [fieldsOf, BitVec.extractLsb'_toNat, Nat.shiftRight_eq_div_pow]
  omega

/-- A word is its fields. -/
theorem fieldsOf_inj {w v : PortWord} : fieldsOf w = fieldsOf v ↔ w = v :=
  (Function.LeftInverse.injective packFields_fieldsOf).eq_iff

@[simp] theorem fieldsOf_encode (i : Instr) : fieldsOf (encode i) = i.fields :=
  fieldsOf_packFields i.fields

/-! ### The decoder by the fields of a command (30_encoding.md R71) -/

theorem decodeFields_fields (i : Instr) : decodeFields i.fields = .ok i := by
  cases i with
  | init | ldcfg | ldent | enc | dec | rdt => simp [Instr.fields, decodeFields]
  | ldend | sealLoad | stat | rst => rfl

/-- A word decodes to a command exactly when it has the fields that the command lays out. -/
theorem decode_eq_ok_iff {w : PortWord} {i : Instr} : decode w = .ok i ↔ fieldsOf w = i.fields := by
  refine ⟨fieldsOf_of_decode, fun h => ?_⟩
  have hrsv : i.fields.rsv0 = 0 ∧ i.fields.rsv1 = 0 := by cases i <;> exact ⟨rfl, rfl⟩
  simp only [decode, h, hrsv, ne_eq, not_true_eq_false, if_false]
  exact decodeFields_fields i

/-- Settles O1: a command's word has the command's fields, a word that decodes to it has them too, and a word is its fields. -/
theorem decodeAndEncodeAreInverse : Obligations.DecodeAndEncodeAreInverse := by
  refine fun i => ⟨decode_eq_ok_iff.2 (fieldsOf_encode i), fun w hw => ?_⟩
  rw [← fieldsOf_inj, fieldsOf_encode, decode_eq_ok_iff.1 hw]

/-! ### The legal words (30_encoding.md R68) -/

/-- The assigned opcodes, one by one (30_encoding.md R65). -/
theorem opcode_cases {k : BitVec 4} (h1 : 1 ≤ k.toNat) (h10 : k.toNat ≤ 10) :
    k = 1 ∨ k = 2 ∨ k = 3 ∨ k = 4 ∨ k = 5 ∨ k = 6 ∨ k = 7 ∨ k = 8 ∨ k = 9 ∨ k = 10 := by
  bv_omega

/-- Legal fields are those that some command lays out. -/
theorem CmdFields.legal_iff (f : CmdFields) : f.legal = true ↔ ∃ i : Instr, f = i.fields := by
  refine ⟨fun h => ?_, fun ⟨i, hi⟩ => hi ▸ i.fields_legal⟩
  obtain ⟨opc, rsv0, a, b, rsv1, d⟩ := f
  simp only [legal, opcodeAssigned, usesA, usesB, usesD, Bool.and_eq_true, Bool.or_eq_true, decide_eq_true_eq,
    beq_iff_eq] at h
  obtain ⟨⟨⟨⟨⟨⟨h1, h10⟩, rfl⟩, rfl⟩, ha⟩, hb⟩, hd⟩ := h
  obtain rfl | rfl | rfl | rfl | rfl | rfl | rfl | rfl | rfl | rfl := opcode_cases h1 h10
  all_goals
    simp only [BitVec.ofNat_eq_ofNat, List.contains_iff_mem, List.mem_cons, List.not_mem_nil, BitVec.reduceEq,
      or_false, or_true, false_or, true_or] at ha hb hd
    subst_vars
  exacts [⟨.init a b d, rfl⟩, ⟨.ldcfg a, rfl⟩, ⟨.ldent d, rfl⟩, ⟨.ldend, rfl⟩, ⟨.sealLoad, rfl⟩, ⟨.enc d, rfl⟩,
    ⟨.dec d, rfl⟩, ⟨.rdt a d, rfl⟩, ⟨.stat, rfl⟩, ⟨.rst, rfl⟩]

/-- Settles O2: the words that decode are those whose fields some command lays out, and these are the legal ones. -/
theorem decoderAcceptsExactlyTheLegalWords : Obligations.DecoderAcceptsExactlyTheLegalWords := by
  intro w
  simp only [decode_eq_ok_iff, CmdFields.legal_iff]

/-! ### The opcode table (30_encoding.md R71) -/

/-- Masking a word masks each of its fields. -/
theorem fieldsOf_and (w m : PortWord) : fieldsOf (w &&& m)
    = { opc := (fieldsOf w).opc &&& (fieldsOf m).opc, rsv0 := (fieldsOf w).rsv0 &&& (fieldsOf m).rsv0,
        a := (fieldsOf w).a &&& (fieldsOf m).a, b := (fieldsOf w).b &&& (fieldsOf m).b,
        rsv1 := (fieldsOf w).rsv1 &&& (fieldsOf m).rsv1, d := (fieldsOf w).d &&& (fieldsOf m).d } := by
  simp only [fieldsOf, BitVec.extractLsb'_and]

theorem OpcodeRow.hits_iff (row : OpcodeRow) (w : PortWord) :
    row.hits w = true ↔ fieldsOf (w &&& row.mask) = fieldsOf row.word := by
  rw [OpcodeRow.hits, beq_iff_eq, fieldsOf_inj]

/-- Each row masks the opcode, the reserved fields and the fields that its opcode does not use. -/
theorem hits_iff_legal {row : OpcodeRow} (hrow : row ∈ opcodeRows) (w : PortWord) :
    row.hits w = true ↔ (fieldsOf w).opc = (fieldsOf row.word).opc ∧ (fieldsOf w).legal = true := by
  have ones4 (x : BitVec 4) : x &&& 0xF#4 = x := BitVec.and_allOnes
  have ones8 (x : BitVec 8) : x &&& 0xFF#8 = x := BitVec.and_allOnes
  have ones64 (x : BitVec 64) : x &&& 0xFFFFFFFFFFFFFFFF#64 = x := BitVec.and_allOnes
  rw [row.hits_iff, fieldsOf_and]
  generalize fieldsOf w = f
  simp only [opcodeRows, List.mem_cons, List.not_mem_nil, or_false] at hrow
  rcases hrow with rfl | rfl | rfl | rfl | rfl | rfl | rfl | rfl | rfl | rfl
  all_goals
    simp only [fieldsOf, BitVec.reduceExtractLsb', BitVec.ofNat_eq_ofNat, ones4, ones8, ones64, BitVec.and_zero,
      CmdFields.mk.injEq, true_and]
    refine and_congr_right fun hopc => ?_
    simp [CmdFields.legal, CmdFields.opcodeAssigned, CmdFields.usesA, CmdFields.usesB, CmdFields.usesD, hopc,
      and_assoc, and_comm, and_left_comm]

/-- A command has a row's mnemonic exactly when it has the row's opcode: for each command, the ten rows. -/
theorem mnemonic_eq_iff {row : OpcodeRow} (hrow : row ∈ opcodeRows) (i : Instr) :
    i.mnemonic = row.mnemonic ↔ i.fields.opc = (fieldsOf row.word).opc := by
  revert row
  cases i <;> simp only [Instr.mnemonic, Instr.fields] <;> decide

/-- Settles O3: both sides say that the word is legal and has the row's opcode. -/
theorem opcodeTableRowsMatchTheDecoder : Obligations.OpcodeTableRowsMatchTheDecoder := by
  intro row hrow w
  simp only [hits_iff_legal hrow, CmdFields.legal_iff, decode_eq_ok_iff, mnemonic_eq_iff hrow]
  exact ⟨fun ⟨ho, i, hi⟩ => ⟨i, hi, hi ▸ ho⟩, fun ⟨i, hi, ho⟩ => ⟨hi ▸ ho, i, hi⟩⟩

/-- Settles O4: each word is evaluated. -/
theorem exampleWordsDecode : Obligations.ExampleWordsDecode :=
  ⟨by decide, by decide, by decide, by decide, by decide, by decide⟩

end Sys2Proof
end

section
/-! SUPPORT. Proofs of a word over a narrower channel (20_memory.md R45) and of the assembler (30_encoding.md R72, R74, R75): operands that
arrive as written, the expansion of `LOAD`, comments. -/

namespace Sys2Proof

/-! ### A word over a narrower channel (20_memory.md R45) -/

theorem bytesToNat_append (bs cs : List Byte) :
    bytesToNat (bs ++ cs) = bytesToNat bs + 2 ^ (8 * bs.length) * bytesToNat cs := by
  induction bs with
  | nil => simp [bytesToNat]
  | cons b bs ih =>
    rw [List.cons_append, bytesToNat, bytesToNat, ih, List.length_cons, Nat.mul_add_one, Nat.pow_add]
    ring

/-- The lowest `n` bytes of a word, as a number. -/
theorem bytesToNat_range (w : PortWord) (n : Nat) :
    bytesToNat ((List.range n).map fun k => w.extractLsb' (8 * k) 8) = w.toNat % 2 ^ (8 * n) := by
  induction n with
  | zero => simp [bytesToNat, Nat.mod_one]
  | succ n ih =>
    rw [List.range_succ, List.map_append, bytesToNat_append, ih, List.length_map, List.length_range,
      Nat.mul_add_one, Nat.pow_add, Nat.mod_mul]
    simp [bytesToNat, Nat.shiftRight_eq_div_pow]

theorem bytesOfWord_length (w : PortWord) : (bytesOfWord w).length = 12 := rfl

/-- The twelve bytes of a word are its number. -/
theorem bytesToNat_bytesOfWord (w : PortWord) : bytesToNat (bytesOfWord w) = w.toNat :=
  (bytesToNat_range w 12).trans (Nat.mod_eq_of_lt w.isLt)

/-- Settles O5: the first twelve bytes are the word, and the rest is what is left. -/
theorem byteTransportKeepsTheWord : Obligations.ByteTransportKeepsTheWord := by
  intro w rest
  have hlen : ¬ (bytesOfWord w ++ rest).length < 12 := by
    rw [List.length_append, bytesOfWord_length]
    omega
  have htake : (bytesOfWord w ++ rest).take 12 = bytesOfWord w := List.take_left' (bytesOfWord_length w)
  have hdrop : (bytesOfWord w ++ rest).drop 12 = rest := List.drop_left' (bytesOfWord_length w)
  have hword : BitVec.ofNat 96 (bytesToNat (bytesOfWord w)) = w := by
    rw [bytesToNat_bytesOfWord, BitVec.ofNat_toNat, BitVec.setWidth_eq]
  cases hd : decode w with
  | ok i => simp only [decodeBytes, hlen, if_false, htake, hdrop, hword, hd]
  | error r => simp only [decodeBytes, hlen, if_false, htake, hword, hd]

/-! ### Operands (30_encoding.md R72) -/

theorem fitsField_iff (n : Nat) (v : Int) : fitsField n v = true ↔ 0 ≤ v ∧ v < 2 ^ n := by
  simp [fitsField]

/-- An operand that fits its field arrives as the number written. -/
theorem toNat_ofInt_of_fits {n : Nat} {v : Int} (h0 : 0 ≤ v) (h1 : v < 2 ^ n) : ((BitVec.ofInt n v).toNat : Int) = v := by
  have hv : v % ((2 ^ n : Nat) : Int) = v := Int.emod_eq_of_lt h0 (by exact_mod_cast h1)
  rw [BitVec.toNat_ofInt, hv, Int.toNat_of_nonneg h0]

/-- A line with an operand that does not fit is an assembly error. -/
theorem assemble_of_not_wellFormed {l : AsmLine} (h : ¬ l.wellFormed = true) : assemble l = none :=
  if_neg h

theorem init_wellFormed_iff (b s r : Int) : (AsmLine.init b s r).wellFormed = true
    ↔ (0 ≤ b ∧ b < 256) ∧ (0 ≤ s ∧ s < 2 ^ 64) ∧ 0 ≤ r ∧ r < 256 := by
  simp [AsmLine.wellFormed, fitsField_iff, and_assoc]

theorem initDefault_wellFormed_iff (b s : Int) : (AsmLine.initDefault b s).wellFormed = true
    ↔ (0 ≤ b ∧ b < 256) ∧ 0 ≤ s ∧ s < 2 ^ 64 := by
  simp [AsmLine.wellFormed, fitsField_iff]

theorem assemble_init {b s r : Int} (h : (AsmLine.init b s r).wellFormed = true) :
    assemble (.init b s r) = some [.init (.ofInt 8 b) (.ofInt 8 r) (.ofInt 64 s)] :=
  if_pos h

theorem assemble_initDefault {b s : Int} (h : (AsmLine.initDefault b s).wellFormed = true) :
    assemble (.initDefault b s) = some [.init (.ofInt 8 b) defaultRounds (.ofInt 64 s)] :=
  if_pos h

/-- Settles O6: an operand that fits its field arrives as written, and a line with one that does not is not well formed. -/
theorem assembledInitCarriesItsOperands : Obligations.AssembledInitCarriesItsOperands := by
  refine ⟨fun b s r hb0 hb hs0 hs hr0 hr => ⟨⟨.ofInt 8 b, .ofInt 8 r, .ofInt 64 s, ?_, ?_⟩, ?_⟩,
    fun b s r h => ⟨?_, ?_⟩, fun b s r h => ?_⟩
  · exact assemble_init ((init_wellFormed_iff ..).2 ⟨⟨hb0, hb⟩, ⟨hs0, hs⟩, hr0, hr⟩)
  · exact ⟨toNat_ofInt_of_fits hb0 hb, toNat_ofInt_of_fits hr0 hr, toNat_ofInt_of_fits hs0 hs⟩
  · rw [assemble_initDefault ((initDefault_wellFormed_iff ..).2 ⟨⟨hb0, hb⟩, hs0, hs⟩),
      assemble_init ((init_wellFormed_iff ..).2 ⟨⟨hb0, hb⟩, ⟨hs0, hs⟩, by decide, by decide⟩)]
    rfl
  · exact assemble_of_not_wellFormed fun hw => by rw [initDefault_wellFormed_iff] at hw; omega
  · exact assemble_of_not_wellFormed fun hw => by rw [init_wellFormed_iff] at hw; omega
  · exact assemble_of_not_wellFormed fun hw => by rw [init_wellFormed_iff] at hw; omega

/-! ### The expansion of `LOAD` (30_encoding.md R75) -/

/-- The value that an `LDENT` command sends. -/
def entrySent : Instr → Option Int
  | .ldent v => some (v.toNat : Int)
  | _ => none

theorem loadTable_length (t : List Data) : (loadTable t).length = t.length + 1 := by
  simp [loadTable]

theorem entriesSent_loadTable (t : List Data) :
    (loadTable t).filterMap entrySent = t.map fun v => (v.toNat : Int) := by
  simp [loadTable, List.filterMap_append, List.filterMap_map, Function.comp_def, entrySent]

/-- One command for each entry and one for each table. -/
theorem length_flatMap_loadTable (ts : List (List Data)) :
    (ts.flatMap loadTable).length = ts.length + (ts.map List.length).sum := by
  induction ts with
  | nil => rfl
  | cons t ts ih =>
    rw [List.flatMap_cons, List.length_append, ih, loadTable_length, List.length_cons, List.map_cons, List.sum_cons]
    omega

theorem entriesSent_flatMap_loadTable (ts : List (List Data)) :
    (ts.flatMap loadTable).filterMap entrySent = (ts.map fun t => t.map fun v => (v.toNat : Int)).flatten := by
  induction ts with
  | nil => rfl
  | cons t ts ih =>
    rw [List.flatMap_cons, List.filterMap_append, entriesSent_loadTable, ih, List.map_cons, List.flatten_cons]

/-- The tables of a written `LOAD` as the operands of its commands. -/
def operandTables (rows : List (List Int)) : List (List Data) := rows.map fun t => t.map fun v => BitVec.ofInt 64 v

theorem operandTables_length (rows : List (List Int)) :
    (operandTables rows).length = rows.length ∧ (operandTables rows).map List.length = rows.map List.length := by
  simp [operandTables, Function.comp_def]

/-- Entries that fit arrive as the numbers written. -/
theorem operandTables_toNat {rows : List (List Int)} (h : ∀ t ∈ rows, ∀ v ∈ t, 0 ≤ v ∧ v < 2 ^ 64) :
    ((operandTables rows).map fun t => t.map fun v => (v.toNat : Int)) = rows := by
  rw [operandTables, List.map_map]
  refine (List.map_congr_left fun t ht => ?_).trans (List.map_id' rows)
  rw [Function.comp_apply, List.map_map]
  refine (List.map_congr_left fun v hv => ?_).trans (List.map_id' t)
  obtain ⟨h0, h1⟩ := h t ht v hv
  exact toNat_ofInt_of_fits h0 h1

theorem load_wellFormed {b : Int} {rows : List (List Int)} (hb0 : 0 ≤ b) (hb : b < 256)
    (h : ∀ t ∈ rows, ∀ v ∈ t, 0 ≤ v ∧ v < 2 ^ 64) : (AsmLine.load b rows).wellFormed = true := by
  simp only [AsmLine.wellFormed, Bool.and_eq_true, List.all_eq_true, fitsField_iff]
  exact ⟨⟨hb0, hb⟩, h⟩

/-- Settles O7: the commands between `LDCFG` and `SEAL` are those of the tables, counted and read by induction over the tables. -/
theorem loadExpandsToItsCommands : Obligations.LoadExpandsToItsCommands := by
  intro b rows hb0 hb h
  obtain ⟨hlen, hlens⟩ := operandTables_length rows
  refine ⟨.ofInt 8 b, (operandTables rows).flatMap loadTable, toNat_ofInt_of_fits hb0 hb,
    if_pos (load_wellFormed hb0 hb h), ?_, ?_⟩
  · rw [length_flatMap_loadTable, hlen, hlens]
  · exact (entriesSent_flatMap_loadTable _).trans (congrArg List.flatten (operandTables_toNat h))

/-! ### Comments (30_encoding.md R72) -/

/-- The tokens of a line do not depend on what follows a semicolon, whatever word was begun before. -/
theorem tokens_comment (cs rest acc : List Char) : tokens (cs ++ ';' :: rest) acc = tokens cs acc := by
  fun_induction tokens cs acc with
  | case1 | case2 => rfl
  | case3 _ _ ih | case4 _ _ ih | case5 _ _ ih => simp only [List.cons_append, tokens, ih]
  | case6 c cs acc _ _ _ _ hspace ih => simp only [List.cons_append, tokens, ih, hspace, if_true]
  | case7 c cs acc _ _ _ _ hspace ih => simp only [List.cons_append, tokens, ih, hspace, Bool.false_eq_true, if_false]

/-- Settles O8: a line is assembled from its tokens. -/
theorem commentsDoNotMatter : Obligations.CommentsDoNotMatter := by
  intro cs rest
  rw [assembleLine, tokens_comment, assembleLine]

end Sys2Proof
end

section
/-! SUPPORT. What a command can do to the engine, in one place (10_state.md R33, R34), and with it: the build parameters stand
(00_scope.md R6), `wf` and the whole invariant are kept by every step (R29), responses stay legal (R66), and every word of a run is
answered (60_exceptions.md R203). -/

namespace Sys2Proof.Machine

/-! ### The effects of the commands -/

/-- From `s` to `u` an engine moves by at most one effect of a command; the response is emitted after it. -/
inductive Effect (s : State) : State → Prop
  /-- A command that only answers: the reading ones, and every one that fails but a step of a load. -/
  | unchanged : Effect s s
  /-- `RST`, hardware reset, and a failed step of a load. -/
  | cleared : Effect s s.hardReset
  /-- `INIT`. -/
  | built {a b : BitVec 8} {ts : List (List Nat)} {u : State} : s.phase = .empty → EvenSize a.toNat → 1 ≤ b.toNat →
      a.toNat ≤ s.cfg.bMax → b.toNat ≤ s.cfg.rMax → ValidSchedule a.toNat ts → ts.length = b.toNat →
      s.writeTables ts = some u → Effect s { u with phase := .ready, bitsz := a, rounds := b, wptr := 0 }
  /-- `LDCFG`. -/
  | opened {a : BitVec 8} : s.phase = .empty → EvenSize a.toNat → a.toNat ≤ s.cfg.bMax →
      Effect s { s with phase := .loading, bitsz := a, rounds := 0, wptr := 0 }
  /-- `LDENT`. -/
  | appended {v : Nat} {u : State} : s.phase = .loading → s.wptr.toNat < tlen s.bitsz.toNat → v < maxs s.bitsz.toNat →
      s.rounds.toNat < s.cfg.rMax → s.writeCell s.rounds.toNat s.wptr.toNat v = some u →
      Effect s { u with wptr := u.wptr + 1 }
  /-- `LDEND`. -/
  | closed : s.phase = .loading → s.wptr.toNat = tlen s.bitsz.toNat →
      Effect s { s with rounds := s.rounds + 1, wptr := 0 }
  /-- `SEAL`. -/
  | finished : s.phase = .loading → s.wptr = 0 → 1 ≤ s.rounds.toNat → Effect s { s with phase := .ready }

/-- A command that answers a next state has one of the effects, and then emits its response. -/
theorem exec_effect {i : Instr} {s t : State} (h : exec i s = .next t) :
    ∃ u st res, t = State.emit u st res ∧ Effect s u := by
  cases i with
  | init a b d =>
    obtain ⟨-, rfl⟩ | ⟨-, -, rfl⟩ | ⟨-, -, -, -, rfl⟩ | ⟨hp, ha, hb, hbits, hrounds, u, hu, rfl⟩ := execInit_cases h
    · exact ⟨_, _, _, rfl, .unchanged⟩
    · exact ⟨_, _, _, rfl, .unchanged⟩
    · exact ⟨_, _, _, rfl, .unchanged⟩
    · have hvalid := ksg_valid (prngOf_inRange s.cfg.prng) a.toNat d b.toNat
      exact ⟨_, _, _, rfl, .built hp ((validBitSize_iff _).1 ha) ((validRounds_iff _).1 hb) hbits hrounds hvalid
        (ksg_length ..) hu⟩
  | ldcfg a =>
    obtain ⟨-, rfl⟩ | ⟨-, -, rfl⟩ | ⟨-, -, -, rfl⟩ | ⟨hp, ha, hbits, rfl⟩ := execLdcfg_cases h
    · exact ⟨_, _, _, rfl, .unchanged⟩
    · exact ⟨_, _, _, rfl, .unchanged⟩
    · exact ⟨_, _, _, rfl, .unchanged⟩
    · exact ⟨_, _, _, rfl, .opened hp ((validBitSize_iff _).1 ha) hbits⟩
  | ldent d =>
    obtain ⟨-, rfl⟩ | ⟨-, -, rfl⟩ | ⟨-, -, -, -, rfl⟩ | ⟨hp, hroom, hd, htable, u, hu, rfl⟩ := execLdent_cases h
    · exact ⟨_, _, _, rfl, .unchanged⟩
    · exact ⟨_, _, _, rfl, .cleared⟩
    · exact ⟨_, _, _, rfl, .cleared⟩
    · exact ⟨_, _, _, rfl, .appended hp hroom hd htable hu⟩
  | ldend =>
    obtain ⟨-, rfl⟩ | ⟨-, -, rfl⟩ | ⟨hp, hfull, rfl⟩ := execLdend_cases h
    · exact ⟨_, _, _, rfl, .unchanged⟩
    · exact ⟨_, _, _, rfl, .cleared⟩
    · exact ⟨_, _, _, rfl, .closed hp hfull⟩
  | sealLoad =>
    obtain ⟨-, rfl⟩ | ⟨-, -, rfl⟩ | ⟨hp, hw, hn, rfl⟩ := execSeal_cases h
    · exact ⟨_, _, _, rfl, .unchanged⟩
    · exact ⟨_, _, _, rfl, .cleared⟩
    · exact ⟨_, _, _, rfl, .finished hp hw hn⟩
  | enc | dec | rdt | stat =>
    obtain ⟨st, res, rfl⟩ := exec_readOnly_cases rfl h
    exact ⟨_, _, _, rfl, .unchanged⟩
  | rst =>
    cases h
    exact ⟨_, _, _, rfl, .cleared⟩

/-- What every effect of a command keeps, and no response and no event touches, every step keeps. -/
theorem step_keeps {P : State → Prop} (hports : ∀ s is rs, P s → P { s with inputs := is, rsps := rs })
    (heffect : ∀ s u, P s → Effect s u → P u) {s t : State} (hs : P s) (h : step s = .next t) : P t := by
  have htaken (rest : List HostEvent) : P { s with inputs := rest } := hports s rest s.rsps hs
  obtain ⟨-, rfl⟩ | ⟨_, rest, -, rfl⟩ | ⟨_, rest, _, -, -, rfl⟩ | ⟨_, rest, i, -, -, he⟩ := step_cases h
  · exact hs
  · exact heffect _ _ (htaken rest) .cleared
  · exact hports _ _ _ (htaken rest)
  · obtain ⟨u, st, res, rfl, hu⟩ := exec_effect he
    exact hports u _ _ (heffect _ _ (htaken rest) hu)

/-- No effect touches the build parameters. -/
theorem Effect.cfg_eq {s u : State} (h : Effect s u) : u.cfg = s.cfg := by
  cases h with
  | built _ _ _ _ _ _ _ hu => exact (State.writeTables_frame hu).1
  | appended _ _ _ _ hu =>
    obtain ⟨-, -, rfl⟩ := State.writeCell_eq_some hu
    rfl
  | unchanged | cleared | opened | closed | finished => rfl

/-- Settles O14: no effect of a command touches the parameters. -/
theorem noStepChangesTheParameters : Obligations.NoStepChangesTheParameters :=
  fun s _ h => step_keeps (P := fun t => t.cfg = s.cfg) (fun _ _ _ => id) (fun _ _ ht hu => hu.cfg_eq.trans ht) rfl h

/-! ### `wf` is kept (10_state.md R29) -/

theorem State.validCell_iff {s : State} {r i : Nat} : s.validCell r i = true
    ↔ ∃ v, (s.readCell r i).map BitVec.toNat = some v ∧ v < maxs s.bitsz.toNat := by
  unfold State.validCell
  cases s.readCell r i <;> simp

/-- `wf` of a state in `EMPTY`. -/
theorem State.wf_of_empty {s : State} (hp : s.phase = .empty) (hb : s.bitsz = 0) (hr : s.rounds = 0) (hw : s.wptr = 0) :
    s.wf :=
  ⟨fun _ => ⟨hb, hr, hw⟩, by simp [hp], by simp [hp], by simp [hp]⟩

/-- An entry of a live cell of a valid schedule. -/
theorem ValidSchedule.entry {b : Nat} {ts : List (List Nat)} (hv : ValidSchedule b ts) {r i : Nat} (hr : r < ts.length)
    (hi : i < tlen b) : ∃ v, (ts[r]?.bind fun row => row[i]?) = some v ∧ v < maxs b := by
  obtain ⟨v, hv', hlt⟩ := tableOf_of_valid (hv _ (List.getElem_mem hr)) hi
  exact ⟨v, by simpa [hr, tableOf] using hv', hlt⟩

/-- An admissible engine counts one more table without wrapping, while it has room for it. -/
theorem toNat_rounds_succ {c : Config} (hc : c.Admissible) {n : BitVec 8} (h : n.toNat < c.rMax) :
    (n + 1).toNat = n.toNat + 1 := by
  obtain ⟨-, -, -, -, hrMax⟩ := hc
  exact BitVec.toNat_add_of_lt (show n.toNat + 1 < 256 by omega)

theorem toNat_wptr_succ {c : Config} (hc : c.Admissible) {b : Nat} (hb : b ≤ c.bMax) {w : Pointer} (h : w.toNat < tlen b) :
    (w + 1).toNat = w.toNat + 1 :=
  BitVec.toNat_add_of_lt (lt_of_le_of_lt h (tlen_lt_pointer hc hb))

/-- Outside `EMPTY` the bit size fits the engine. -/
theorem State.wf.bitsz_le_bMax {s : State} (h : s.wf) (hp : s.phase ≠ .empty) : s.bitsz.toNat ≤ s.cfg.bMax := by
  obtain ⟨-, hbitsz, -, -⟩ := h
  obtain ⟨-, -, hbits⟩ := hbitsz hp
  exact hbits

/-- A full table was begun where there was room for it (the rule of `LDENT`), so `LDEND` stays within `R_MAX`. -/
theorem State.wf.room_of_full {s : State} (h : s.wf) (hp : s.phase = .loading) (hfull : s.wptr.toNat = tlen s.bitsz.toNat) :
    s.rounds.toNat < s.cfg.rMax := by
  obtain ⟨-, -, hload, -⟩ := h
  obtain ⟨hle, -, hstart, -, -⟩ := hload hp
  refine lt_of_le_of_ne hle fun he => ?_
  have hzero : s.wptr.toNat = 0 := by simp [hstart he]
  have := maxs_pos s.bitsz.toNat
  unfold tlen at hfull
  omega

section Wf

variable {s u : State} (hc : s.cfg.Admissible)
include hc

theorem wf_built {a b : BitVec 8} {ts : List (List Nat)} (ha : EvenSize a.toNat) (hb : 1 ≤ b.toNat)
    (hbits : a.toNat ≤ s.cfg.bMax) (hrounds : b.toNat ≤ s.cfg.rMax) (hv : ValidSchedule a.toNat ts)
    (hlen : ts.length = b.toNat) (hu : s.writeTables ts = some u) :
    State.wf { u with phase := .ready, bitsz := a, rounds := b, wptr := 0 } := by
  obtain ⟨hcfg, -, -⟩ := State.writeTables_frame hu
  refine ⟨by simp, fun _ => ⟨ha.1, ha.2, hcfg ▸ hbits⟩, by simp,
    fun _ => ⟨hb, hcfg ▸ hrounds, rfl, fun r hr i hi => ?_⟩⟩
  obtain ⟨v, hentry, hlt⟩ := hv.entry (hlen ▸ hr) hi
  exact State.validCell_iff.2 ⟨v, (State.readCell_writeTables hc hu r i).trans (by rw [hentry, Option.some_or]), hlt⟩

/-- A store of an entry below `MAXS` makes its own cell valid and leaves every valid cell valid. -/
theorem validCell_writeCell {r i v : Nat} (hv : v < maxs s.bitsz.toNat) (hu : s.writeCell r i v = some u) (r' i' : Nat)
    (h : ¬ (r' = r ∧ i' = i) → s.validCell r' i' = true) : u.validCell r' i' = true := by
  have hread := State.readCell_writeCell hc hu r' i'
  obtain ⟨-, -, rfl⟩ := State.writeCell_eq_some hu
  rw [State.validCell_iff, hread]
  split_ifs with hcell
  · exact ⟨v, rfl, hv⟩
  · exact State.validCell_iff.1 (h hcell)

theorem wf_appended {v : Nat} (h : s.wf) (hp : s.phase = .loading) (hroom : s.wptr.toNat < tlen s.bitsz.toNat)
    (hv : v < maxs s.bitsz.toNat) (htable : s.rounds.toNat < s.cfg.rMax)
    (hu : s.writeCell s.rounds.toNat s.wptr.toNat v = some u) : State.wf { u with wptr := u.wptr + 1 } := by
  have hvalid := validCell_writeCell hc hv hu
  have hbits := h.bitsz_le_bMax (by simp [hp])
  obtain ⟨-, -, rfl⟩ := State.writeCell_eq_some hu
  obtain ⟨-, hbitsz, hload, -⟩ := h
  obtain ⟨hle, -, -, hdone, hopen⟩ := hload hp
  have hwptr : (s.wptr + 1).toNat = s.wptr.toNat + 1 := toNat_wptr_succ hc hbits hroom
  refine ⟨by simp [hp], fun _ => hbitsz (by simp [hp]), fun _ => ⟨hle, ?_, fun he => absurd he htable.ne, ?_, ?_⟩, by simp [hp]⟩
  · exact hwptr.trans_le hroom
  · exact fun r hr i hi => hvalid r i fun _ => hdone r hr i hi
  · intro i hi
    have hi : i < s.wptr.toNat + 1 := hwptr ▸ hi
    exact hvalid s.rounds.toNat i fun hne => hopen i (by omega)

theorem wf_closed (h : s.wf) (hp : s.phase = .loading) (hfull : s.wptr.toNat = tlen s.bitsz.toNat) :
    State.wf { s with rounds := s.rounds + 1, wptr := 0 } := by
  have hroom := h.room_of_full hp hfull
  have hrounds : (s.rounds + 1).toNat = s.rounds.toNat + 1 := toNat_rounds_succ hc hroom
  obtain ⟨-, hbitsz, hload, -⟩ := h
  obtain ⟨-, -, -, hdone, hopen⟩ := hload hp
  refine ⟨by simp [hp], fun _ => hbitsz (by simp [hp]),
    fun _ => ⟨hrounds.trans_le hroom, Nat.zero_le _, fun _ => rfl, fun r hr i hi => ?_, by simp⟩, by simp [hp]⟩
  simp only [hrounds] at hr
  obtain hlt | rfl : r < s.rounds.toNat ∨ r = s.rounds.toNat := by omega
  · exact hdone r hlt i hi
  · exact hopen i (hfull ▸ hi)

/-- Every effect of a command keeps `wf`. -/
theorem Effect.wf (h : s.wf) (he : Effect s u) : u.wf := by
  cases he with
  | unchanged => exact h
  | cleared => exact State.wf_of_empty rfl rfl rfl rfl
  | built _ ha hb hbits hrounds hv hlen hu => exact wf_built hc ha hb hbits hrounds hv hlen hu
  | opened _ ha hbits =>
    exact ⟨by simp, fun _ => ⟨ha.1, ha.2, hbits⟩,
      fun _ => ⟨Nat.zero_le _, Nat.zero_le _, fun _ => rfl, by simp, by simp⟩, by simp⟩
  | appended hp hroom hv htable hu => exact wf_appended hc h hp hroom hv htable hu
  | closed hp hfull => exact wf_closed hc h hp hfull
  | finished hp hw hn =>
    obtain ⟨-, hbitsz, hload, -⟩ := h
    obtain ⟨hle, -, -, hdone, -⟩ := hload hp
    exact ⟨by simp, fun _ => hbitsz (by simp [hp]), by simp, fun _ => ⟨hn, hle, hw, hdone⟩⟩

end Wf

/-- Settles O17: `wf` holds in `EMPTY` with zero registers, and every effect of a command keeps it. -/
theorem wfHoldsAfterResetAndIsKept : Obligations.WfHoldsAfterResetAndIsKept := by
  refine ⟨fun c _ => State.wf_of_empty rfl rfl rfl rfl, fun s t hc hs h => ?_⟩
  have hkept : t.cfg.Admissible ∧ t.wf :=
    step_keeps (P := fun s => s.cfg.Admissible ∧ s.wf) (fun _ _ _ => id)
      (fun _ _ hs hu => ⟨hu.cfg_eq ▸ hs.1, hu.wf hs.1 hs.2⟩) ⟨hc, hs⟩ h
  exact hkept.2

/-! ### The store is kept in canonical form, with values in the owned cells alone (10_state.md R27) -/

/-- The store's part of the invariant. -/
def State.StoreOwned (s : State) : Prop := s.rtr.wf = true ∧ ∀ c ∈ s.rtr, s.owns c.1 = true

theorem State.Inv.wf {s : State} (h : s.Inv) : s.wf := h.2.1

theorem State.Inv.storeOwned {s : State} (h : s.Inv) : s.StoreOwned := h.2.2

theorem State.owns_empty {s : State} (hp : s.phase = .empty) (a : CellAddr) : s.owns a = false := by
  simp [State.owns, hp]

theorem State.owns_loading {s : State} (hp : s.phase = .loading) (a : CellAddr) : s.owns a = true ↔
    a.2 < tlen s.bitsz.toNat ∧ (a.1 < s.rounds.toNat ∨ a.1 = s.rounds.toNat ∧ a.2 < s.wptr.toNat) := by
  simp [State.owns, hp]

theorem State.owns_ready {s : State} (hp : s.phase = .ready) (a : CellAddr) : s.owns a = true ↔
    a.1 < s.rounds.toNat ∧ a.2 < tlen s.bitsz.toNat := by
  simp [State.owns, hp]

/-- In `EMPTY` no cell holds a value. -/
theorem State.StoreOwned.rtr_of_empty {s : State} (h : s.StoreOwned) (hp : s.phase = .empty) : s.rtr = [] :=
  List.eq_nil_iff_forall_not_mem.2 fun c hc => by simpa [State.owns_empty hp] using h.2 c hc

/-- The cells of the bulk store of a valid schedule lie in its live region. -/
theorem mem_writeAll_tableCells {b : Nat} {ts : List (List Nat)} (hv : ValidSchedule b ts) {c : CellAddr × CellWord}
    (h : c ∈ Memory.writeAll [] (asCells (tableCells 0 ts))) : c.1.1 < ts.length ∧ c.1.2 < tlen b := by
  obtain h | h := Memory.mem_writeAll h
  · obtain ⟨e, he, rfl⟩ := List.mem_map.1 h
    obtain ⟨t, ht, -, hr, hi, -⟩ := mem_tableCells he
    rw [(hv t ht).1] at hi
    exact ⟨by simpa using hr, hi⟩
  · simp at h

/-- Every effect of a command keeps the store's part of the invariant. -/
theorem Effect.storeOwned {s u : State} (hc : s.cfg.Admissible) (hw : s.wf) (h : s.StoreOwned) (he : Effect s u) :
    u.StoreOwned := by
  cases he with
  | unchanged => exact h
  | cleared => exact ⟨rfl, List.forall_mem_nil _⟩
  | built hp _ _ _ _ hv hlen hu =>
    obtain ⟨-, rfl⟩ := State.writeTables_eq_some hu
    rw [h.rtr_of_empty hp]
    refine ⟨Memory.wf_writeAll rfl _, fun c hmem => (State.owns_ready rfl _).2 ?_⟩
    rw [← hlen]
    exact mem_writeAll_tableCells hv hmem
  | opened hp =>
    rw [State.StoreOwned, h.rtr_of_empty hp]
    exact ⟨rfl, List.forall_mem_nil _⟩
  | appended hp hroom _ _ hu =>
    obtain ⟨-, -, rfl⟩ := State.writeCell_eq_some hu
    refine ⟨Memory.wf_write h.1 _ _, fun c hmem => (State.owns_loading (by exact hp) _).2 ?_⟩
    have hwptr : (s.wptr + 1).toNat = s.wptr.toNat + 1 := toNat_wptr_succ hc (hw.bitsz_le_bMax (by simp [hp])) hroom
    obtain rfl | hmem := Memory.mem_write hmem
    · exact ⟨hroom, .inr ⟨rfl, hwptr ▸ Nat.lt_succ_self _⟩⟩
    · obtain ⟨hi, hr⟩ := (State.owns_loading hp _).1 (h.2 c hmem)
      exact ⟨hi, hr.imp_right fun hr => ⟨hr.1, hwptr ▸ Nat.lt_succ_of_lt hr.2⟩⟩
  | closed hp hfull =>
    refine ⟨h.1, fun c hmem => (State.owns_loading (by exact hp) _).2 ?_⟩
    have hrounds : (s.rounds + 1).toNat = s.rounds.toNat + 1 := toNat_rounds_succ hc (hw.room_of_full hp hfull)
    obtain ⟨hi, hr⟩ := (State.owns_loading hp _).1 (h.2 c hmem)
    exact ⟨hi, .inl (by simp only [hrounds]; omega)⟩
  | finished hp hwptr =>
    refine ⟨h.1, fun c hmem => (State.owns_ready rfl _).2 ?_⟩
    obtain ⟨hi, hr⟩ := (State.owns_loading hp _).1 (h.2 c hmem)
    exact ⟨by simpa [hwptr] using hr, hi⟩

/-- Every effect of a command keeps the invariant. -/
theorem Effect.inv {s u : State} (h : s.Inv) (he : Effect s u) : u.Inv := by
  obtain ⟨hc, hw, hstore⟩ := h
  exact ⟨he.cfg_eq ▸ hc, he.wf hc hw, he.storeOwned hc hw hstore⟩

/-- Settles O18: every effect of a command keeps the invariant, which does not speak of the ports. -/
theorem everyStepKeepsTheInvariant : Obligations.EveryStepKeepsTheInvariant :=
  fun _ _ => step_keeps (P := State.Inv) (fun _ _ _ => id) fun _ _ => Effect.inv

/-- Settles O16: in `EMPTY` with zero registers and an empty store nothing is left to check but the parameters. -/
theorem invariantHoldsAfterReset : Obligations.InvariantHoldsAfterReset := by
  have hreset (c : Config) (hc : c.Admissible) : (State.resetOf c).Inv :=
    ⟨hc, State.wf_of_empty rfl rfl rfl rfl, rfl, List.forall_mem_nil _⟩
  exact ⟨hreset _ (by decide), hreset⟩

/-- A command keeps the invariant. -/
theorem exec_inv {i : Instr} {s t : State} (hs : s.Inv) (h : exec i s = .next t) : t.Inv := by
  obtain ⟨u, st, res, rfl, he⟩ := exec_effect h
  exact (he.inv hs : u.Inv)

/-! ### Responses (30_encoding.md R66) -/

theorem legalResponse_packResponse {st : Status} {res : Data} (h : st ≠ .ok → res = 0) :
    legalResponse (packResponse st res) = true := by
  obtain ⟨-, hst, hmiddle, hres⟩ := packResponse_layout h
  simp only [legalResponse, Bool.and_eq_true, Bool.or_eq_true, decide_eq_true_eq, beq_iff_eq]
  exact ⟨⟨hst, hmiddle⟩, or_iff_not_imp_left.2 hres⟩

/-- A command that answers adds one legal response. -/
theorem Answered.legal {s t : State} (h : Answered s t) (hs : ∀ w ∈ s.rsps, legalResponse w = true) :
    ∀ w ∈ t.rsps, legalResponse w = true := by
  obtain ⟨-, st, res, hrsps, hres⟩ := h
  rw [hrsps, List.forall_mem_append, List.forall_mem_singleton]
  exact ⟨hs, legalResponse_packResponse hres⟩

/-- Settles O13: a step adds no response, or the one of a rejected word or of a command. -/
theorem everyStepKeepsResponsesLegal : Obligations.EveryStepKeepsResponsesLegal := by
  intro s t h hs
  obtain ⟨-, rfl⟩ | ⟨_, _, -, rfl⟩ | ⟨_, rest, _, -, -, rfl⟩ | ⟨_, rest, i, -, -, he⟩ := step_cases h
  · exact hs
  · exact hs
  · exact (answered_error (s := { s with inputs := rest }) rfl rfl .illegal).legal hs
  · exact (answered_of_exec he).legal hs

/-! ### Runs (60_exceptions.md R203; 70_reset_and_hazards.md R221) -/

/-- The step that takes a waiting command word answers it and keeps the invariant. -/
theorem step_of_waiting_word {s : State} (hs : s.Inv) {w : PortWord} {rest : List HostEvent}
    (hi : s.inputs = .command w :: rest) :
    ∃ t rsp, step s = .next t ∧ t.Inv ∧ t.inputs = rest ∧ t.rsps = s.rsps ++ [rsp] := by
  obtain ⟨t, rsp, ht, hinputs, hrsps, -⟩ := everyCommandWordGetsOneResponse s w rest hs hi
  exact ⟨t, rsp, ht, everyStepKeepsTheInvariant s t hs ht, hinputs, hrsps⟩

theorem run_succ_of_step {M : Host.Core} {s u : M.State} (h : M.step s = .next u) (k : Nat) :
    M.run (k + 1) s = M.run k u := by
  rw [Host.Core.run, h]

/-- Settles O15, by induction on the words that wait. -/
theorem runAnswersEveryCommandWord : Obligations.RunAnswersEveryCommandWord := by
  intro s ws
  induction ws generalizing s with
  | nil => exact fun _ hi => ⟨s, [], rfl, hi, (List.append_nil _).symm, rfl⟩
  | cons w ws ih =>
    intro hs hi
    obtain ⟨u, rsp, hu, huinv, hinputs, hrsps⟩ := step_of_waiting_word hs hi
    obtain ⟨t, rs, ht, htin, htrsps, hlen⟩ := ih u huinv hinputs
    refine ⟨t, rsp :: rs, ?_, htin, ?_, congrArg (· + 1) hlen⟩
    · exact (run_succ_of_step (M := core) hu ws.length).trans ht
    · rw [htrsps, hrsps, List.append_assoc, List.singleton_append]

/-- Settles O9: the step takes the word, which decodes to the command. -/
theorem stepRunsTheDecodedCommand : Obligations.StepRunsTheDecodedCommand := by
  refine ⟨fun s w rest i hi hd => (step_of_command hi).trans (acceptCommand_of_ok hd _), fun s hi => ?_⟩
  rw [step, hi]

theorem State.readCell_of_rtr_nil {s : State} (h : s.rtr = []) (r i : Nat) : s.readCell r i = none := by
  simp [State.readCell, h]

/-- Settles O11: the step leaves the state of `hardReset`. -/
theorem hardwareResetDiscardsTheCommand : Obligations.HardwareResetDiscardsTheCommand :=
  fun _ _ _ hi => ⟨_, step_of_reset hi, rfl, rfl, rfl, rfl, State.readCell_of_rtr_nil rfl, rfl, rfl, rfl⟩

end Sys2Proof.Machine
end

section
/-! SUPPORT. Proofs of 41_keyschedule.md: the shape and range of a schedule (R100, R101), the generation order (R102), and the
closed form under `SM64` (R105). -/

namespace Sys2Proof.Machine

/-- Settles O27: the tables of a schedule are valid, and every engine's generator meets law 2. -/
theorem scheduleHasItsShapeAndRange : Obligations.ScheduleHasItsShapeAndRange :=
  ⟨fun g b n seed hg => ⟨ksg_length g b seed n, ksg_valid hg b seed n⟩, prngOf_inRange⟩

/-! ### The generation order (41_keyschedule.md R102) -/

theorem stateAfter_add (g : Prng) (h k j : Nat) (s : g.S) :
    stateAfter g h (k + j) s = stateAfter g h j (stateAfter g h k s) := by
  induction k generalizing s with
  | zero => rw [Nat.zero_add, stateAfter]
  | succ k ih => rw [Nat.add_right_comm, stateAfter, ih, stateAfter]

/-- Table `r` is drawn from the state that the `r * len` draws before it leave. -/
theorem drawTables_getElem? (g : Prng) (h len : Nat) {n r : Nat} (s : g.S) (hr : r < n) :
    (drawTables g h len n s)[r]? = some (drawTable g h len (stateAfter g h (r * len) s)).1 := by
  induction n generalizing r s with
  | zero => omega
  | succ n ih =>
    cases r with
    | zero => rw [drawTables, List.getElem?_cons_zero, Nat.zero_mul, stateAfter]
    | succ r =>
      rw [drawTables, List.getElem?_cons_succ, ih _ (by omega), drawTable_state, Nat.succ_mul, Nat.add_comm,
        stateAfter_add]

/-- Entry `i` of table `r` is draw number `r * tlen b + i`. -/
theorem ksg_entry (g : Prng) {b n r i : Nat} (seed : Data) (hr : r < n) (hi : i < tlen b) :
    ((ksg g b seed n)[r]?.bind fun t => t[i]?) = some (drawNumber g (half b) (r * tlen b + i) (g.init seed)) := by
  rw [ksg, drawTables_getElem? g _ _ _ hr, Option.bind_some, drawTable_getElem g _ _ _ _ hi, drawNumber_add]

/-- The first tables do not depend on how many follow. -/
theorem take_drawTables (g : Prng) (h len : Nat) {m n : Nat} (s : g.S) (hm : m ≤ n) :
    (drawTables g h len n s).take m = drawTables g h len m s := by
  induction m generalizing n s with
  | zero => rw [List.take_zero, drawTables]
  | succ m ih =>
    obtain ⟨n, rfl⟩ : ∃ k, n = k + 1 := ⟨n - 1, by omega⟩
    rw [drawTables, drawTables, List.take_succ_cons, ih _ (by omega)]

/-- Settles O28: the entry by the state its table is drawn from, and the first tables by induction. -/
theorem entryIsTheDrawOfItsNumber : Obligations.EntryIsTheDrawOfItsNumber :=
  fun g _ _ seed => ⟨fun _ hr _ hi => ksg_entry g seed hr hi, fun _ hm => take_drawTables g _ _ _ hm⟩

/-! ### The closed form under `SM64` (41_keyschedule.md R105) -/

/-- Before draw number `k` the state of `SM64` has advanced `k` times, and the draw advances it once more. -/
theorem drawNumber_sm64 (h k : Nat) (s : Data) :
    drawNumber sm64 h k s = (mix64 (s + BitVec.ofNat 64 (k + 1) * gamma)).toNat >>> (64 - h) := by
  induction k generalizing s with
  | zero => rw [drawNumber_sm64_zero, sm64Draw_fst, Nat.zero_add, BitVec.one_mul]
  | succ k ih =>
    have hstate : s + gamma + BitVec.ofNat 64 (k + 1) * gamma = s + BitVec.ofNat 64 (k + 1 + 1) * gamma := by
      rw [BitVec.ofNat_add (k + 1) 1, BitVec.add_mul, BitVec.one_mul, BitVec.add_assoc, BitVec.add_comm gamma]
    rw [drawNumber_sm64_succ, ih, sm64Draw_snd, hstate]

/-- Settles O29: the draw of its number, under `SM64`. -/
theorem closedFormOfTheDefaultSchedule : Obligations.ClosedFormOfTheDefaultSchedule := by
  intro b n seed r hr i hi
  rw [ksg_entry sm64 seed hr hi]
  exact congrArg some (drawNumber_sm64 (half b) (r * tlen b + i) seed)

end Sys2Proof.Machine
end

section
/-! SUPPORT. Proofs of 43_transform.md, sections 3 and 6: a round is invertible (R153), and with it the transforms (R150 to R152,
R154); they read no dead cell (R155; 20_memory.md R44). -/

namespace Sys2Proof.Machine

/-- Settles O43: `half b` is below `2^(half b)`. -/
theorem bothReadFormsAreInsideTheTable : Obligations.BothReadFormsAreInsideTheTable := by
  intro b _ z hz
  have hoff : half b < maxs b := Nat.lt_two_pow_self
  unfold xoff tlen
  omega

/-! ### The tables of a valid schedule -/

theorem ValidTable.covers {b : Nat} {t : List Nat} (ht : ValidTable b t) : Covers b (tableOf t) := by
  intro i hi
  obtain ⟨v, hv, -⟩ := tableOf_of_valid ht hi
  exact ⟨v, hv⟩

theorem ValidTable.lt {b : Nat} {t : List Nat} (ht : ValidTable b t) {i v : Nat} (h : tableOf t i = some v) :
    v < maxs b :=
  ht.2 v (List.mem_of_getElem? h)

theorem ValidSchedule.covers {b : Nat} {ts : List (List Nat)} (hv : ValidSchedule b ts) :
    ∀ t ∈ ts.map tableOf, Covers b t :=
  List.forall_mem_map.2 fun t ht => ValidTable.covers (hv t ht)

theorem validSchedule_cons {b : Nat} {t : List Nat} {ts : List (List Nat)} :
    ValidSchedule b (t :: ts) ↔ ValidTable b t ∧ ValidSchedule b ts :=
  List.forall_mem_cons

/-! ### One round (43_transform.md R153) -/

section Round

variable {b : Nat} {t : List Nat} {p q : Halves}

theorem halvesInRange_of_roundFwd {t : RoundTable} (h : roundFwd b t p = some q) : HalvesInRange b q := by
  obtain ⟨u, w, -, -, rfl⟩ := roundFwd_eq_some.1 h
  exact ⟨addm_lt (maxs_pos b) .., addm_lt (maxs_pos b) ..⟩

theorem halvesInRange_of_roundInv {t : RoundTable} (h : roundInv b t p = some q) : HalvesInRange b q := by
  obtain ⟨w, u, -, -, rfl⟩ := roundInv_eq_some.1 h
  exact ⟨subm_lt (maxs_pos b) .., subm_lt (maxs_pos b) ..⟩

/-- The inverse round reads the two entries that the round read, in the other order, and takes each away again. -/
theorem roundInv_of_roundFwd (ht : ValidTable b t) (hp : HalvesInRange b p) (h : roundFwd b (tableOf t) p = some q) :
    roundInv b (tableOf t) q = some p := by
  obtain ⟨u, w, hu, hw, rfl⟩ := roundFwd_eq_some.1 h
  have hx : subm (maxs b) (addm (maxs b) p.1 u) u = p.1 := subm_addm hp.1 (ht.lt hu)
  have hy : subm (maxs b) (addm (maxs b) p.2 w) w = p.2 := subm_addm hp.2 (ht.lt hw)
  exact roundInv_eq_some.2 ⟨w, u, hw, by simpa only [hy] using hu, by simp only [hx, hy]⟩

theorem roundFwd_of_roundInv (ht : ValidTable b t) (hp : HalvesInRange b p) (h : roundInv b (tableOf t) p = some q) :
    roundFwd b (tableOf t) q = some p := by
  obtain ⟨w, u, hw, hu, rfl⟩ := roundInv_eq_some.1 h
  have hx : addm (maxs b) (subm (maxs b) p.1 u) u = p.1 := addm_subm hp.1 (ht.lt hu)
  have hy : addm (maxs b) (subm (maxs b) p.2 w) w = p.2 := addm_subm hp.2 (ht.lt hw)
  exact roundFwd_eq_some.2 ⟨u, w, hu, by simpa only [hx] using hw, by simp only [hx, hy]⟩

/-- On halves in range a round and its inverse are each other's graph. -/
theorem roundFwd_iff_roundInv (ht : ValidTable b t) (hp : HalvesInRange b p) (hq : HalvesInRange b q) :
    roundFwd b (tableOf t) p = some q ↔ roundInv b (tableOf t) q = some p :=
  ⟨roundInv_of_roundFwd ht hp, roundFwd_of_roundInv ht hq⟩

end Round

/-- Settles O42: round and inverse round are defined, in range, and undo each other. -/
theorem roundIsInvertible : Obligations.RoundIsInvertible := by
  intro b t _ ht x hx y hy
  obtain ⟨p, hp, hpr⟩ := roundFwd_defined ht.covers (p := (x, y)) ⟨hx, hy⟩
  obtain ⟨q, hq, hqr⟩ := roundInv_defined ht.covers (p := (x, y)) ⟨hx, hy⟩
  exact ⟨⟨p.1, p.2, hp, hpr.1, hpr.2, roundInv_of_roundFwd ht ⟨hx, hy⟩ hp⟩,
    ⟨q.1, q.2, hq, hqr.1, hqr.2, roundFwd_of_roundInv ht ⟨hx, hy⟩ hq⟩⟩

/-! ### All rounds, and the transforms (43_transform.md R150 to R152, R154) -/

theorem halvesInRange_of_roundsInv {b : Nat} {ts : List RoundTable} {p q : Halves} (hp : HalvesInRange b p)
    (h : roundsInv b ts p = some q) : HalvesInRange b q := by
  cases ts with
  | nil => exact Option.some.inj h ▸ hp
  | cons t ts =>
    obtain ⟨m, -, hm⟩ := Option.bind_eq_some_iff.1 h
    exact halvesInRange_of_roundInv hm

/-- The rounds in schedule order and the inverse rounds in reverse order are each other's graph. -/
theorem roundsFwd_iff_roundsInv {b : Nat} {ts : List (List Nat)} (hv : ValidSchedule b ts) {p q : Halves}
    (hp : HalvesInRange b p) (hq : HalvesInRange b q) :
    roundsFwd b (ts.map tableOf) p = some q ↔ roundsInv b (ts.map tableOf) q = some p := by
  induction ts generalizing p with
  | nil => simp [roundsFwd, roundsInv, eq_comm]
  | cons t ts ih =>
    obtain ⟨ht, hts⟩ := validSchedule_cons.1 hv
    simp only [List.map_cons, roundsFwd, roundsInv, Option.bind_eq_some_iff]
    refine exists_congr fun m => ⟨fun ⟨hm, hmq⟩ => ?_, fun ⟨hqm, hm⟩ => ?_⟩
    · exact ⟨(ih hts (halvesInRange_of_roundFwd hm)).1 hmq, roundInv_of_roundFwd ht hp hm⟩
    · have hmr := halvesInRange_of_roundsInv hq hqm
      exact ⟨roundFwd_of_roundInv ht hmr hm, (ih hts hmr).2 hqm⟩

section Transform

variable {b : Nat} {ts : List (List Nat)} (hb : EvenSize b) (hv : ValidSchedule b ts)
include hb hv

theorem exists_encodeFn (v : Nat) : ∃ w, encodeFn b (ts.map tableOf) v = some w ∧ w < 2 ^ b := by
  obtain ⟨w, hlt, hw⟩ := encodeFn_in_domain hb hv.covers v
  exact ⟨w, hw, hlt⟩

theorem exists_decodeFn (v : Nat) : ∃ w, decodeFn b (ts.map tableOf) v = some w ∧ w < 2 ^ b := by
  obtain ⟨w, hlt, hw⟩ := decodeFn_in_domain hb hv.covers v
  exact ⟨w, hw, hlt⟩

/-- On the domain, where split and join are inverse, encoding and decoding are each other's graph. -/
theorem encodeFn_iff_decodeFn {v w : Nat} (hvd : v < 2 ^ b) (hwd : w < 2 ^ b) :
    encodeFn b (ts.map tableOf) v = some w ↔ decodeFn b (ts.map tableOf) w = some v := by
  have hjoin {p : Halves} {x : Nat} (hp : HalvesInRange b p) (hx : x < 2 ^ b) : join b p = x ↔ p = split b x :=
    ⟨fun h => h ▸ (split_join hp).symm, fun h => h ▸ join_split hb hx⟩
  obtain ⟨p, hp, hpr⟩ := roundsFwd_defined hv.covers (split_lt b v)
  obtain ⟨q, hq, hqr⟩ := roundsInv_defined hv.covers (split_lt b w)
  calc encodeFn b (ts.map tableOf) v = some w
      ↔ roundsFwd b (ts.map tableOf) (split b v) = some (split b w) := by
        simp [encodeFn, hp, hjoin hpr hwd]
    _ ↔ roundsInv b (ts.map tableOf) (split b w) = some (split b v) :=
        roundsFwd_iff_roundsInv hv (split_lt b v) (split_lt b w)
    _ ↔ decodeFn b (ts.map tableOf) w = some v := by
        simp [decodeFn, hq, hjoin hqr hvd]

end Transform

/-- Settles O44: the rounds of a valid schedule are defined and stay in range. -/
theorem transformsStayInTheDomain : Obligations.TransformsStayInTheDomain :=
  fun _ _ v hb hv _ => ⟨exists_encodeFn hb hv v, exists_decodeFn hb hv v⟩

/-- Settles O45: encoding and decoding are each other's graph. -/
theorem decodingUndoesEncoding : Obligations.DecodingUndoesEncoding := by
  intro b ts v hb hv hvd
  obtain ⟨c, hc, hcd⟩ := exists_encodeFn hb hv v
  obtain ⟨d, hd, hdd⟩ := exists_decodeFn hb hv v
  rw [hc, hd]
  exact ⟨(encodeFn_iff_decodeFn hb hv hvd hcd).1 hc, (encodeFn_iff_decodeFn hb hv hdd hvd).2 hd⟩

/-- Settles O46: the one value that a value of the domain encodes is its decoding. -/
theorem encodingIsABijectionOfTheDomain : Obligations.EncodingIsABijectionOfTheDomain := by
  intro b ts hb hv
  refine ⟨fun v _ => ?_, fun w hw => ?_, fun v hvd w hwd => encodeFn_iff_decodeFn hb hv hvd hwd⟩
  · obtain ⟨w, hw, hwd⟩ := exists_encodeFn hb hv v
    exact ⟨w, hwd, hw⟩
  · obtain ⟨d, hd, hdd⟩ := exists_decodeFn hb hv w
    refine ⟨d, ⟨hdd, (encodeFn_iff_decodeFn hb hv hdd hw).2 hd⟩, fun v ⟨hvd, hv'⟩ => ?_⟩
    exact Option.some.inj (((encodeFn_iff_decodeFn hb hv hvd hw).1 hv').symm.trans hd)

/-- Settles O47: whatever was encoded, decoding is defined and in the domain. -/
theorem wrongKeyDecodesIntoTheDomain : Obligations.WrongKeyDecodesIntoTheDomain := by
  intro b ts us v hb ht hu _
  obtain ⟨c, hc, -⟩ := exists_encodeFn hb ht v
  rw [hc]
  exact exists_decodeFn hb hu c

/-! ### Dead cells (43_transform.md R155) -/

/-- The tables agree at every index that a round can read: an index below `M`, or one below `M` plus `XOFF`. -/
def AgreeLive (b : Nat) (t u : RoundTable) : Prop := ∀ i < maxs b + half b, t i = u i

theorem AgreeLive.roundFwd_eq {b : Nat} {t u : RoundTable} (h : AgreeLive b t u) {p : Halves} (hp : HalvesInRange b p) :
    roundFwd b t p = roundFwd b u p := by
  have hxoff (a : Nat) : t (addm (maxs b) p.1 a + xoff b) = u (addm (maxs b) p.1 a + xoff b) :=
    h _ (Nat.add_lt_add_right (addm_lt (maxs_pos b) p.1 a) _)
  simp only [roundFwd, h p.2 (Nat.lt_add_right _ hp.2), hxoff]

theorem AgreeLive.roundInv_eq {b : Nat} {t u : RoundTable} (h : AgreeLive b t u) {p : Halves} (hp : HalvesInRange b p) :
    roundInv b t p = roundInv b u p := by
  have hhalf (a : Nat) : t (subm (maxs b) p.2 a) = u (subm (maxs b) p.2 a) :=
    h _ (Nat.lt_add_right _ (subm_lt (maxs_pos b) p.2 a))
  simp only [roundInv, h (p.1 + xoff b) (Nat.add_lt_add_right hp.1 _), hhalf]

theorem roundsFwd_congr {b : Nat} {ts us : List RoundTable} (h : List.Forall₂ (AgreeLive b) ts us) {p : Halves}
    (hp : HalvesInRange b p) : roundsFwd b ts p = roundsFwd b us p := by
  induction h generalizing p with
  | nil => rfl
  | cons hd _ ih =>
    rw [roundsFwd, roundsFwd, hd.roundFwd_eq hp]
    exact Option.bind_congr fun q hq => ih (halvesInRange_of_roundFwd hq)

theorem roundsInv_congr {b : Nat} {ts us : List RoundTable} (h : List.Forall₂ (AgreeLive b) ts us) {p : Halves}
    (hp : HalvesInRange b p) : roundsInv b ts p = roundsInv b us p := by
  induction h with
  | nil => rfl
  | cons hd _ ih =>
    rw [roundsInv, roundsInv, ih]
    exact Option.bind_congr fun q hq => hd.roundInv_eq (halvesInRange_of_roundsInv hp hq)

/-- Settles O48: a round reads only indices at which the tables agree. -/
theorem deadCellsDoNotMatter : Obligations.DeadCellsDoNotMatter := by
  intro b ts us _ _ _ hlen hagree v _
  have h : List.Forall₂ (AgreeLive b) (ts.map tableOf) (us.map tableOf) := by
    rw [List.forall₂_map_left_iff, List.forall₂_map_right_iff]
    refine List.forall₂_of_length_eq_of_get hlen fun r hr hr' i hi => ?_
    simpa [hr, hr', tableOf] using hagree r i hi
  rw [encodeFn, encodeFn, decodeFn, decodeFn, roundsFwd_congr h (split_lt b v), roundsInv_congr h (split_lt b v)]
  exact ⟨rfl, rfl⟩

end Sys2Proof.Machine
end

section
/-! SUPPORT. Proofs about a `READY` engine: its store is a valid schedule (10_state.md R27, R29), so the laws of 43_transform.md hold
of `ENC` and `DEC` (R151, R152; 40_validator.md R90); `RDT` (44_status_control.md R170); reading commands do not interfere
(60_exceptions.md R200). -/

namespace Sys2Proof.Machine

/-! ### The tables of an engine (10_state.md R27) -/

/-- The live region of the store as tables, a cell without value read as 0. -/
def State.liveTables (s : State) : List (List Nat) :=
  (List.range s.rounds.toNat).map fun r =>
    (List.range (tlen s.bitsz.toNat)).map fun i => ((s.readCell r i).map BitVec.toNat).getD 0

theorem State.liveTables_length (s : State) : s.liveTables.length = s.rounds.toNat := by
  rw [State.liveTables, List.length_map, List.length_range]

/-- The entry of a live cell that holds a value. -/
theorem State.liveTables_entry {s : State} {r i : Nat} (hr : r < s.rounds.toNat) (hi : i < tlen s.bitsz.toNat)
    {v : CellWord} (hv : s.readCell r i = some v) : (s.liveTables[r]?.bind fun t => t[i]?) = some v.toNat := by
  simp [State.liveTables, hr, hi, hv]

/-- Outside the live region the tables have no entry. -/
theorem State.liveTables_outside {s : State} {r i : Nat} (h : ¬ (r < s.rounds.toNat ∧ i < tlen s.bitsz.toNat)) :
    (s.liveTables[r]?.bind fun t => t[i]?) = none := by
  by_cases hr : r < s.rounds.toNat
  · have hi : ¬ i < tlen s.bitsz.toNat := fun hi => h ⟨hr, hi⟩
    simp [State.liveTables, hr, hi]
  · simp [State.liveTables, hr]

/-- A cell with a value is one that the engine owns. -/
theorem State.Inv.owns_of_readCell {s : State} (h : s.Inv) {r i : Nat} {v : CellWord} (hv : s.readCell r i = some v) :
    s.owns (r, i) = true := by
  obtain ⟨-, -, -, howned⟩ := h
  rw [State.readCell] at hv
  split_ifs at hv
  exact howned _ (Memory.mem_of_read hv)

section Ready

variable {s : State} (h : s.Inv) (hp : s.phase = .ready)
include h hp

/-- In `READY` a live cell holds a value below `MAXS`. -/
theorem State.Inv.readCell_live {r i : Nat} (hr : r < s.rounds.toNat) (hi : i < tlen s.bitsz.toNat) :
    ∃ v, s.readCell r i = some v ∧ v.toNat < maxs s.bitsz.toNat := by
  obtain ⟨-, ⟨-, -, -, hready⟩, -, -⟩ := h
  obtain ⟨-, -, -, hcells⟩ := hready hp
  obtain ⟨n, hn, hlt⟩ := State.validCell_iff.1 (hcells r hr i hi)
  obtain ⟨v, hv, rfl⟩ := Option.map_eq_some_iff.1 hn
  exact ⟨v, hv, hlt⟩

/-- In `READY` every cell reads as the tables' entry, and no other cell holds a value. -/
theorem State.Inv.readCell_eq_liveTables (r i : Nat) :
    (s.readCell r i).map BitVec.toNat = s.liveTables[r]?.bind fun t => t[i]? := by
  by_cases hlive : r < s.rounds.toNat ∧ i < tlen s.bitsz.toNat
  · obtain ⟨v, hv, -⟩ := h.readCell_live hp hlive.1 hlive.2
    rw [State.liveTables_entry hlive.1 hlive.2 hv, hv, Option.map_some]
  · rw [State.liveTables_outside hlive]
    cases hv : s.readCell r i with
    | none => rfl
    | some v => exact absurd ((State.owns_ready hp _).1 (h.owns_of_readCell hv)) hlive

theorem State.Inv.liveTables_valid : ValidSchedule s.bitsz.toNat s.liveTables := by
  intro t ht
  obtain ⟨r, hr, rfl⟩ := List.mem_map.1 ht
  refine ⟨by simp, fun v hv => ?_⟩
  obtain ⟨i, hi, rfl⟩ := List.mem_map.1 hv
  obtain ⟨v, hv, hlt⟩ := h.readCell_live hp (List.mem_range.1 hr) (List.mem_range.1 hi)
  rw [hv]
  exact hlt

/-- In `READY` the transforms run over the engine's tables. -/
theorem State.Inv.schedule_eq : s.schedule = s.liveTables.map tableOf := by
  rw [State.schedule, State.liveTables, List.map_map]
  refine List.map_congr_left fun r hr => funext fun i => ?_
  have hlive : r < s.rounds.toNat := List.mem_range.1 hr
  simpa [State.liveTables, State.roundTable, tableOf, hlive] using h.readCell_eq_liveTables hp r i

/-- In `READY` encoding and decoding, over the engine's own tables, are each other's graph on the domain. -/
theorem State.Inv.encodeFn_iff_decodeFn {v w : Nat} (hv : v < 2 ^ s.bitsz.toNat) (hw : w < 2 ^ s.bitsz.toNat) :
    encodeFn s.bitsz.toNat s.schedule v = some w ↔ decodeFn s.bitsz.toNat s.schedule w = some v := by
  rw [h.schedule_eq hp]
  exact Machine.encodeFn_iff_decodeFn (h.evenSize hp) (h.liveTables_valid hp) hv hw

/-- `ENC` of a value of the domain answers a value of the domain that decodes to it. -/
theorem State.Inv.exec_enc {d : Data} (hd : d.toNat < 2 ^ s.bitsz.toNat) :
    ∃ c : Data, exec (.enc d) s = .next (s.emit .ok c) ∧ c.toNat < 2 ^ s.bitsz.toNat
      ∧ decodeFn s.bitsz.toNat s.schedule c.toNat = some d.toNat := by
  obtain ⟨-, -, hin⟩ := encAnswersTheEncodedValue s d h
  obtain ⟨c, hc, hcd, hexec⟩ := hin hp hd
  exact ⟨c, hexec, hcd, (h.encodeFn_iff_decodeFn hp hd hcd).1 hc⟩

end Ready

/-- Settles O51: the live region as tables. -/
theorem readyEngineHoldsAValidSchedule : Obligations.ReadyEngineHoldsAValidSchedule :=
  fun s h hp => ⟨s.liveTables, s.liveTables_length, h.liveTables_valid hp, h.readCell_eq_liveTables hp⟩

/-! ### `ENC` and `DEC` (43_transform.md R151, R152; 40_validator.md R90) -/

theorem runAll_cons_of_next {i : Instr} {is : List Instr} {s t : State} (h : exec i s = .next t) :
    runAll (i :: is) s = runAll is t := by
  rw [runAll, h]

/-- Settles O52: the answer of `ENC` is of the domain and decodes to the value, and `ENC` leaves the tables as they are. -/
theorem decOfEncAnswersTheValue : Obligations.DecOfEncAnswersTheValue := by
  intro s d h hp hd
  obtain ⟨c, henc, hcd, hdec⟩ := h.exec_enc hp hd
  have hdec : exec (.dec c) (s.emit .ok c) = .next ((s.emit .ok c).emit .ok d) :=
    execDec_of_inDomain (s := s.emit .ok c) hp hcd hdec
  refine ⟨c, ?_⟩
  rw [runAll_cons_of_next henc, runAll_cons_of_next hdec, runAll]
  simp [State.emit]

theorem answerOf_of_emit {i : Instr} {s u : State} {st : Status} {res : Data} (h : exec i s = .next (u.emit st res)) :
    answerOf i s = some (packResponse st res) := by
  simp [answerOf, h]

/-- Settles O53: the same answer decodes to both values. -/
theorem encAnswersAreDistinct : Obligations.EncAnswersAreDistinct := by
  intro s d e h hp hd he heq
  obtain ⟨c, hc, -, hcd⟩ := h.exec_enc hp hd
  obtain ⟨c', hc', -, hce⟩ := h.exec_enc hp he
  rw [answerOf_of_emit hc, answerOf_of_emit hc'] at heq
  obtain ⟨-, rfl⟩ := packResponse_inj (Option.some.inj heq)
  exact BitVec.eq_of_toNat_eq (Option.some.inj (hcd.symm.trans hce))

/-- A round over a table of zeros adds nothing to either half. -/
theorem roundFwd_zero {b : Nat} {t : List Nat} (ht : ValidTable b t) (hzero : ∀ v ∈ t, v = 0) {p : Halves}
    (hp : HalvesInRange b p) : roundFwd b (tableOf t) p = some p := by
  obtain ⟨q, hq, -⟩ := roundFwd_defined ht.covers hp
  obtain ⟨u, w, hu, hw, rfl⟩ := roundFwd_eq_some.1 hq
  obtain rfl := hzero u (List.mem_of_getElem? hu)
  obtain rfl := hzero w (List.mem_of_getElem? hw)
  rw [hq, addm, addm, Nat.add_zero, Nat.add_zero, Nat.mod_eq_of_lt hp.1, Nat.mod_eq_of_lt hp.2]

theorem roundsFwd_zero {b : Nat} {ts : List (List Nat)} (hv : ValidSchedule b ts) (hzero : ∀ t ∈ ts, ∀ v ∈ t, v = 0)
    {p : Halves} (hp : HalvesInRange b p) : roundsFwd b (ts.map tableOf) p = some p := by
  induction ts with
  | nil => rfl
  | cons t ts ih =>
    obtain ⟨ht, hts⟩ := validSchedule_cons.1 hv
    obtain ⟨hzt, hzts⟩ := List.forall_mem_cons.1 hzero
    rw [List.map_cons, roundsFwd, roundFwd_zero ht hzt hp, Option.bind_some, ih hts hzts]

/-- Tables of zeros encode every value of the domain to itself. -/
theorem encodeFn_zero {b : Nat} (hb : EvenSize b) {ts : List (List Nat)} (hv : ValidSchedule b ts)
    (hzero : ∀ t ∈ ts, ∀ v ∈ t, v = 0) {v : Nat} (hvd : v < 2 ^ b) : encodeFn b (ts.map tableOf) v = some v := by
  rw [encodeFn, roundsFwd_zero hv hzero (split_lt b v), Option.map_some, join_split hb hvd]

/-- Where no cell holds another value than 0, the tables are of zeros. -/
theorem State.liveTables_zero {s : State} (hzero : ∀ c ∈ s.rtr, c.2 = 0) : ∀ t ∈ s.liveTables, ∀ v ∈ t, v = 0 := by
  intro t ht v hv
  obtain ⟨r, -, rfl⟩ := List.mem_map.1 ht
  obtain ⟨i, -, rfl⟩ := List.mem_map.1 hv
  cases hcell : s.readCell r i with
  | none => rfl
  | some w =>
    rw [State.readCell] at hcell
    split_ifs at hcell
    obtain rfl : w = 0 := hzero _ (Memory.mem_of_read hcell)
    rfl

/-- Settles O54: encoding over tables of zeros is the identity, and decoding undoes it. -/
theorem allZeroTablesAreTheIdentity : Obligations.AllZeroTablesAreTheIdentity := by
  intro s d h hp hd hzero
  have henc : encodeFn s.bitsz.toNat s.schedule d.toNat = some d.toNat := by
    rw [h.schedule_eq hp]
    exact encodeFn_zero (h.evenSize hp) (h.liveTables_valid hp) (State.liveTables_zero hzero) hd
  exact ⟨execEnc_of_inDomain hp hd henc, execDec_of_inDomain hp hd ((h.encodeFn_iff_decodeFn hp hd hd).1 henc)⟩

/-! ### `RDT`, an equation for each of its checks (44_status_control.md R170) -/

section Rdt

variable {a : BitVec 8} {d : Data} {s : State}

theorem execRdt_of_not_ready (hp : s.phase ≠ .ready) : execRdt a d s = .next (s.emit .seq 0) :=
  if_pos hp

theorem execRdt_of_outside (hp : s.phase = .ready) (h : s.rounds.toNat ≤ a.toNat ∨ tlen s.bitsz.toNat ≤ d.toNat) :
    execRdt a d s = .next (s.emit .index 0) := by
  rw [execRdt, if_neg (not_not.2 hp), if_pos (by simpa using h)]
  rfl

theorem execRdt_of_live {v : CellWord} (hp : s.phase = .ready) (hr : a.toNat < s.rounds.toNat)
    (hi : d.toNat < tlen s.bitsz.toNat) (hv : s.readCell a.toNat d.toNat = some v) :
    execRdt a d s = .next (s.emit .ok (v.setWidth 64)) := by
  rw [execRdt, if_neg (not_not.2 hp), if_neg (by simpa using ⟨hr, hi⟩), hv]
  rfl

end Rdt

/-- Settles O55: one equation for each check of `RDT`; the invariant gives a live cell its value below `MAXS`. -/
theorem rdtAnswersTheCell : Obligations.RdtAnswersTheCell := by
  refine fun s a d h => ⟨execRdt_of_not_ready, execRdt_of_outside, fun hp hr hi => ?_⟩
  obtain ⟨v, hv, hlt⟩ := h.readCell_live hp hr hi
  exact ⟨v, hv, hlt, execRdt_of_live hp hr hi hv⟩

/-! ### Reading commands one after the other (60_exceptions.md R200) -/

/-- What a reading command answers in `READY` does not depend on the responses given before. -/
theorem State.Inv.exec_readOnly {i : Instr} {s : State} (h : s.Inv) (hp : s.phase = .ready) (hi : readOnly i = true) :
    ∃ st res, ∀ rs, exec i { s with rsps := rs } = .next (State.emit { s with rsps := rs } st res) := by
  cases i with
  | enc d =>
    obtain ⟨-, -, hin⟩ := encAnswersTheEncodedValue s d h
    obtain hd | hd := lt_or_ge d.toNat (2 ^ s.bitsz.toNat)
    · obtain ⟨v, hv, -, -⟩ := hin hp hd
      exact ⟨.ok, v, fun _ => execEnc_of_inDomain hp hd hv⟩
    · exact ⟨.domain, 0, fun _ => execEnc_of_not_inDomain hp hd⟩
  | dec d =>
    obtain ⟨-, -, hin⟩ := decAnswersTheDecodedValue s d h
    obtain hd | hd := lt_or_ge d.toNat (2 ^ s.bitsz.toNat)
    · obtain ⟨v, hv, -, -⟩ := hin hp hd
      exact ⟨.ok, v, fun _ => execDec_of_inDomain hp hd hv⟩
    · exact ⟨.domain, 0, fun _ => execDec_of_not_inDomain hp hd⟩
  | rdt a d =>
    by_cases hlive : a.toNat < s.rounds.toNat ∧ d.toNat < tlen s.bitsz.toNat
    · obtain ⟨v, hv, -⟩ := h.readCell_live hp hlive.1 hlive.2
      exact ⟨.ok, v.setWidth 64, fun _ => execRdt_of_live hp hlive.1 hlive.2 hv⟩
    · have hout : s.rounds.toNat ≤ a.toNat ∨ tlen s.bitsz.toNat ≤ d.toNat := by omega
      exact ⟨.index, 0, fun _ => execRdt_of_outside hp hout⟩
  | stat => exact ⟨.ok, statWord s.phase s.bitsz s.rounds s.wptr, fun rs => exec_stat { s with rsps := rs }⟩
  | init | ldcfg | ldent | ldend | sealLoad | rst => simp [readOnly] at hi

/-- Whatever was answered before, reading commands add the responses that they get alone. -/
theorem State.Inv.runAll_readOnly {is : List Instr} {s : State} (h : s.Inv) (hp : s.phase = .ready)
    (hall : ∀ i ∈ is, readOnly i = true) :
    ∃ rs : List PortWord, is.map (fun i => answerOf i s) = rs.map some
      ∧ ∀ before, runAll is { s with rsps := before } = .next { s with rsps := before ++ rs } := by
  induction is with
  | nil => exact ⟨[], rfl, fun before => by rw [runAll, List.append_nil]⟩
  | cons i is ih =>
    obtain ⟨hi, his⟩ := List.forall_mem_cons.1 hall
    obtain ⟨st, res, hexec⟩ := h.exec_readOnly hp hi
    obtain ⟨rs, hanswers, hrun⟩ := ih his
    refine ⟨packResponse st res :: rs, ?_, fun before => ?_⟩
    · rw [List.map_cons, List.map_cons, answerOf_of_emit (hexec s.rsps), hanswers]
    · rw [runAll_cons_of_next (hexec before), State.emit, hrun, List.append_assoc, List.singleton_append]

/-- Settles O59, by induction on the commands, for whatever responses were given before. -/
theorem readOnlyCommandsDoNotInterfere : Obligations.ReadOnlyCommandsDoNotInterfere := by
  intro is s h hp hall
  obtain ⟨rs, hanswers, hrun⟩ := h.runAll_readOnly hp hall
  exact ⟨rs, hanswers, hrun s.rsps⟩

end Sys2Proof.Machine
end

section
/-! SUPPORT. Proofs of 42_table_load.md: `LDEND` (R122), and the load as a whole, accepted or rejected (R124). -/

namespace Sys2Proof.Machine

/-! ### `LDEND`, an equation for each of its checks (42_table_load.md R122) -/

section Ldend

variable {s : State}

theorem execLdend_of_not_loading (hp : s.phase ≠ .loading) : execLdend s = .next (s.emit .seq 0) :=
  if_pos hp

theorem execLdend_of_not_full (hp : s.phase = .loading) (hw : s.wptr.toNat ≠ tlen s.bitsz.toNat) :
    execLdend s = .next (s.abortLoad.emit .config 0) := by
  rw [execLdend, if_neg (not_not.2 hp), (validTableLen_false_iff ..).2 hw]
  rfl

theorem execLdend_of_full (hp : s.phase = .loading) (hw : s.wptr.toNat = tlen s.bitsz.toNat) :
    execLdend s = .next (State.emit { s with rounds := s.rounds + 1, wptr := 0 } .ok 0) := by
  rw [execLdend, if_neg (not_not.2 hp), (validTableLen_iff ..).2 hw]
  rfl

end Ldend

/-- Settles O35: one equation for each check of `LDEND`; a full table was begun with room for it, so `ROUNDS` stays within
`R_MAX`. -/
theorem ldendClosesTheTable : Obligations.LdendClosesTheTable := by
  intro s h
  refine ⟨execLdend_of_not_loading, execLdend_of_not_full, fun hp hw => ?_⟩
  have hroom := h.wf.room_of_full hp hw
  have hrounds : (s.rounds + 1).toNat = s.rounds.toNat + 1 := toNat_rounds_succ h.1 hroom
  exact ⟨_, execLdend_of_full hp hw, hrounds, hrounds.trans_le hroom, rfl⟩

/-! ### The rest of an aborted stream (70_reset_and_hazards.md R215) -/

/-- In `EMPTY` the table of R187 allows no step of a load. -/
theorem not_allowed_empty {i : Instr} (hi : loadStep i = true) : allowed i .empty = false := by
  cases i with
  | ldent | ldend | sealLoad => rfl
  | init | ldcfg | enc | dec | rdt | stat | rst => simp [loadStep] at hi

/-- Settles O26, by induction on the commands: each is one that `EMPTY` does not allow. -/
theorem streamAfterAnAbortAnswersSeq : Obligations.StreamAfterAnAbortAnswersSeq := by
  intro is
  induction is with
  | nil => exact fun s _ _ => by simp [runAll]
  | cons i is ih =>
    intro s hp hall
    obtain ⟨hi, his⟩ := List.forall_mem_cons.1 hall
    have hforbidden : allowed i s.phase = false := hp ▸ not_allowed_empty hi
    rw [runAll_cons_of_next (exec_of_not_allowed hforbidden), ih (s.emit .seq 0) hp his, List.length_cons,
      List.replicate_succ, List.append_cons]
    rfl

/-! ### Parts of a stream of commands -/

theorem drive_cons_of_next {i : Instr} {is : List Instr} {s t : State} (h : exec i s = .next t) :
    drive (i :: is) s = if t.lastStatusIs .ok then drive is t else .next t := by
  rw [drive, h]

/-- The driver gets from `s` through the commands to `u` with `OK`, 0 to each. -/
structure Passes (is : List Instr) (s u : State) : Prop where
  drive_append : ∀ rest, drive (is ++ rest) s = drive rest u
  cfg_eq : u.cfg = s.cfg
  rsps_eq : u.rsps = s.rsps ++ List.replicate is.length (packResponse .ok 0)

/-- The driver stops at one of the commands, which is answered with the status and leaves the engine as after reset. -/
def Stops (is : List Instr) (st : Status) (s : State) : Prop :=
  ∃ t, (∀ rest, drive (is ++ rest) s = .next t) ∧ t.arch = State.resetOf s.cfg
    ∧ ∀ st', t.lastStatusIs st' = decide (st = st')

section Stream

variable {i : Instr} {is js : List Instr} {st : Status} {s u v : State}

theorem Passes.nil (s : State) : Passes [] s s :=
  ⟨fun _ => rfl, rfl, (List.append_nil _).symm⟩

theorem Passes.append (h : Passes is s u) (h' : Passes js u v) : Passes (is ++ js) s v := by
  obtain ⟨hdrive, hcfg, hrsps⟩ := h
  obtain ⟨hdrive', hcfg', hrsps'⟩ := h'
  refine ⟨fun rest => ?_, hcfg'.trans hcfg, ?_⟩
  · rw [List.append_assoc, hdrive, hdrive']
  · rw [hrsps', hrsps, List.append_assoc, List.length_append, ← List.replicate_add]

theorem Passes.stops (h : Passes is s u) (h' : Stops js st u) : Stops (is ++ js) st s := by
  obtain ⟨hdrive, hcfg, -⟩ := h
  obtain ⟨t, ht, harch, hst⟩ := h'
  exact ⟨t, fun rest => by rw [List.append_assoc, hdrive, ht], hcfg ▸ harch, hst⟩

theorem Stops.append (h : Stops is st s) (js : List Instr) : Stops (is ++ js) st s := by
  obtain ⟨t, ht, h⟩ := h
  exact ⟨t, fun rest => by rw [List.append_assoc, ht], h⟩

/-- A command that completes with result 0. -/
theorem passes_of_exec (h : exec i s = .next (u.emit .ok 0)) (hcfg : u.cfg = s.cfg) (hrsps : u.rsps = s.rsps) :
    Passes [i] s (u.emit .ok 0) := by
  refine ⟨fun rest => ?_, hcfg, congrArg (· ++ _) hrsps⟩
  rw [List.singleton_append, drive_cons_of_next h]
  simp

/-- A command that fails and leaves the engine as after reset. -/
theorem stops_of_exec (h : exec i s = .next (u.emit st 0)) (hst : st ≠ .ok) (harch : u.arch = State.resetOf s.cfg) :
    Stops [i] st s := by
  refine ⟨u.emit st 0, fun rest => ?_, harch, fun st' => by simp⟩
  rw [List.singleton_append, drive_cons_of_next h]
  simp [hst]

end Stream

/-! ### An engine in the middle of a load -/

/-- A table without entries adds no entry. -/
theorem entry_append_nil (ts : List (List Nat)) (r i : Nat) :
    ((ts ++ [[]])[r]?.bind fun row => row[i]?) = ts[r]?.bind fun row => row[i]? := by
  obtain hr | rfl | hr := lt_trichotomy r ts.length
  · rw [List.getElem?_append_left hr]
  · simp
  · simp [List.getElem?_append_right hr.le, hr.le, Nat.sub_ne_zero_of_lt hr]

/-- One more entry at the end of a table. -/
theorem getElem?_append_entry (t : List Nat) (v i : Nat) : (t ++ [v])[i]? = if i = t.length then some v else t[i]? := by
  obtain hi | rfl | hi := lt_trichotomy i t.length
  · rw [List.getElem?_append_left hi, if_neg hi.ne]
  · rw [List.getElem?_concat_length, if_pos rfl]
  · rw [if_neg hi.ne', List.getElem?_eq_none (by simpa using hi), List.getElem?_eq_none hi.le]

/-- One more entry of the last table. -/
theorem entry_append_entry (ts : List (List Nat)) (t : List Nat) (v r i : Nat) :
    ((ts ++ [t ++ [v]])[r]?.bind fun row => row[i]?)
      = if r = ts.length ∧ i = t.length then some v else (ts ++ [t])[r]?.bind fun row => row[i]? := by
  obtain hr | rfl | hr := lt_trichotomy r ts.length
  · simp [List.getElem?_append_left hr, hr.ne]
  · simp [getElem?_append_entry]
  · simp [List.getElem?_append_right hr.le, hr.ne', Nat.sub_ne_zero_of_lt hr]

/-- The load has ended the tables `done` and stored the entries `cur` of the next one. -/
structure Holding (b : BitVec 8) (done : List (List Data)) (cur : List Data) (s : State) : Prop where
  inv : s.Inv
  phase : s.phase = .loading
  bitsz : s.bitsz = b
  rounds : s.rounds.toNat = done.length
  wptr : s.wptr.toNat = cur.length
  cells : ∀ r i, (s.readCell r i).map BitVec.toNat = (tablesToNat (done ++ [cur]))[r]?.bind fun row => row[i]?

/-- After `LDCFG` nothing is stored. -/
theorem ldcfg_passes {b : BitVec 8} {s : State} (h : s.Inv) (hp : s.phase = .empty) (hb : validBitSize b.toNat = true)
    (hfit : b.toNat ≤ s.cfg.bMax) : ∃ u, Passes [.ldcfg b] s u ∧ Holding b [] [] u := by
  have hexec : exec (.ldcfg b) s = _ := execLdcfg_of_fits hp hb hfit
  refine ⟨_, passes_of_exec hexec rfl rfl, exec_inv h hexec, rfl, rfl, rfl, rfl, fun r i => ?_⟩
  have hnone := State.readCell_of_rtr_nil (h.storeOwned.rtr_of_empty hp) r i
  exact (congrArg (Option.map BitVec.toNat) hnone).trans (entry_append_nil [] r i).symm

section Holding

variable {b : BitVec 8} {done : List (List Data)} {cur : List Data} {s : State} (h : Holding b done cur s)
include h

/-- `LDENT` of a valid entry, where the table and the store have room. -/
theorem Holding.ldent_passes {d : Data} (hroom : cur.length < tlen b.toNat) (hd : d.toNat < maxs b.toNat)
    (htable : done.length < s.cfg.rMax) : ∃ u, Passes [.ldent d] s u ∧ Holding b done (cur ++ [d]) u := by
  obtain ⟨hinv, hp, rfl, hrounds, hwptr, hcells⟩ := h
  rw [← hwptr] at hroom
  rw [← hrounds] at htable
  obtain ⟨u, hu, hexec⟩ := execLdent_of_fits hp (hinv.bitsz_le_bMax hp) hroom hd htable
  have hexec : exec (.ldent d) s = _ := hexec
  have hread := State.readCell_writeCell hinv.1 hu
  obtain ⟨-, -, rfl⟩ := State.writeCell_eq_some hu
  refine ⟨_, passes_of_exec hexec rfl rfl, exec_inv hinv hexec, hp, rfl, hrounds, ?_, fun r i => ?_⟩
  · rw [List.length_append, ← hwptr]
    exact hinv.toNat_wptr_succ hp hroom
  · refine (hread r i).trans ?_
    simp only [hcells, hrounds, hwptr, tablesToNat, List.map_append, List.map_singleton, entry_append_entry, List.length_map]

/-- `LDEND` of a full table. -/
theorem Holding.ldend_passes (hfull : cur.length = tlen b.toNat) :
    ∃ u, Passes [.ldend] s u ∧ Holding b (done ++ [cur]) [] u := by
  obtain ⟨hinv, hp, rfl, hrounds, hwptr, hcells⟩ := h
  have hw : s.wptr.toNat = tlen s.bitsz.toNat := hwptr.trans hfull
  have hexec : exec .ldend s = _ := execLdend_of_full hp hw
  refine ⟨_, passes_of_exec hexec rfl rfl, exec_inv hinv hexec, hp, rfl, ?_, rfl, fun r i => ?_⟩
  · rw [List.length_append, ← hrounds]
    exact toNat_rounds_succ hinv.1 (hinv.wf.room_of_full hp hw)
  · refine (hcells r i).trans ?_
    rw [tablesToNat, tablesToNat, List.map_append (l₁ := done ++ [cur]), List.map_singleton, List.map_nil,
      entry_append_nil]

/-- An entry beyond the table's length or not below `MAXS` abandons the load. -/
theorem Holding.ldent_stops_config {d : Data} (hbad : tlen b.toNat ≤ cur.length ∨ maxs b.toNat ≤ d.toNat) :
    Stops [.ldent d] .config s := by
  obtain ⟨-, hp, rfl, -, hwptr, -⟩ := h
  rw [← hwptr] at hbad
  exact stops_of_exec (execLdent_of_invalid hp hbad) (by decide) rfl

/-- A valid entry of a table for which the store has no room abandons the load. -/
theorem Holding.ldent_stops_cap {d : Data} (hroom : cur.length < tlen b.toNat) (hd : d.toNat < maxs b.toNat)
    (htable : s.cfg.rMax ≤ done.length) : Stops [.ldent d] .cap s := by
  obtain ⟨-, hp, rfl, hrounds, hwptr, -⟩ := h
  rw [← hwptr] at hroom
  rw [← hrounds] at htable
  exact stops_of_exec (execLdent_of_not_fits hp hroom hd htable) (by decide) rfl

/-- `LDEND` of a table that is not full abandons the load. -/
theorem Holding.ldend_stops (hne : cur.length ≠ tlen b.toNat) : Stops [.ldend] .config s := by
  obtain ⟨-, hp, rfl, -, hwptr, -⟩ := h
  rw [← hwptr] at hne
  exact stops_of_exec (execLdend_of_not_full hp hne) (by decide) rfl

/-! ### One table, and all of them -/

/-- Valid entries that fit the table are stored in order. -/
theorem Holding.entries_pass {vs : List Data} (hfit : cur.length + vs.length ≤ tlen b.toNat)
    (hvs : ∀ v ∈ vs, v.toNat < maxs b.toNat) (htable : done.length < s.cfg.rMax) :
    ∃ u, Passes (vs.map .ldent) s u ∧ Holding b done (cur ++ vs) u := by
  induction vs generalizing cur s with
  | nil => exact ⟨s, .nil s, by rwa [List.append_nil]⟩
  | cons v vs ih =>
    obtain ⟨hv, hvs⟩ := List.forall_mem_cons.1 hvs
    rw [List.length_cons] at hfit
    obtain ⟨u, hpass, hu⟩ := h.ldent_passes (by omega) hv htable
    have hfit' : (cur ++ [v]).length + vs.length ≤ tlen b.toNat := by
      rw [List.length_append, List.length_singleton]
      omega
    obtain ⟨w, hpass', hw⟩ := ih hu hfit' hvs (hpass.cfg_eq ▸ htable)
    exact ⟨w, hpass.append hpass', by rwa [List.append_assoc] at hw⟩

/-- Entries of which one is not valid or does not fit the table stop the driver with `CONFIG`. -/
theorem Holding.entries_stop {vs : List Data}
    (hbad : ¬ (cur.length + vs.length ≤ tlen b.toNat ∧ ∀ v ∈ vs, v.toNat < maxs b.toNat))
    (hcur : cur.length ≤ tlen b.toNat) (htable : done.length < s.cfg.rMax) : Stops (vs.map .ldent) .config s := by
  induction vs generalizing cur s with
  | nil => exact absurd ⟨hcur, by simp⟩ hbad
  | cons v vs ih =>
    by_cases hv : cur.length < tlen b.toNat ∧ v.toNat < maxs b.toNat
    · obtain ⟨u, hpass, hu⟩ := h.ldent_passes hv.1 hv.2 htable
      refine hpass.stops (ih hu (fun hall => hbad ?_) ?_ (hpass.cfg_eq ▸ htable))
      · rw [List.length_append, List.length_singleton] at hall
        rw [List.length_cons]
        exact ⟨by omega, List.forall_mem_cons.2 ⟨hv.2, hall.2⟩⟩
      · rw [List.length_append, List.length_singleton]
        exact hv.1
    · exact (h.ldent_stops_config (by omega)).append (vs.map .ldent)

end Holding

/-- `SEAL` of a load without a table abandons the load. -/
theorem Holding.seal_stops {b : BitVec 8} {s : State} (h : Holding b [] [] s) : Stops [.sealLoad] .config s := by
  have hrounds : s.rounds.toNat < 1 := by rw [h.rounds]; decide
  exact stops_of_exec (i := .sealLoad) (execSeal_of_invalid h.phase (.inr hrounds)) (by decide) rfl

/-- The answer to the first command of a table for which the store has no room. -/
def beyondStatus (b : Nat) : List Nat → Status
  | [] => .config
  | v :: _ => if v < maxs b then .cap else .config

/-- The first answer but `OK` to the commands of the tables, where the store has room for so many tables. -/
def streamFault (b : Nat) : Nat → List (List Nat) → Option Status
  | _, [] => none
  | 0, t :: _ => some (beyondStatus b t)
  | room + 1, t :: ts => if ValidTable b t then streamFault b room ts else some .config

section Tables

variable {b : BitVec 8} {done : List (List Data)} {s : State} (h : Holding b done [] s)
include h

/-- A valid table for which the store has room is ended. -/
theorem Holding.table_passes {t : List Data} (ht : ValidTable b.toNat (t.map BitVec.toNat))
    (htable : done.length < s.cfg.rMax) : ∃ u, Passes (loadTable t) s u ∧ Holding b (done ++ [t]) [] u := by
  obtain ⟨hlen, hlt⟩ := ht
  rw [List.length_map] at hlen
  obtain ⟨u, hpass, hu⟩ := h.entries_pass (by simp [hlen]) (List.forall_mem_map.1 hlt) htable
  obtain ⟨w, hpass', hw⟩ := hu.ldend_passes hlen
  exact ⟨w, hpass.append hpass', hw⟩

/-- A table that is not valid stops the driver with `CONFIG`, though the store has room for one. -/
theorem Holding.table_stops {t : List Data} (ht : ¬ ValidTable b.toNat (t.map BitVec.toNat))
    (htable : done.length < s.cfg.rMax) : Stops (loadTable t) .config s := by
  by_cases hfit : ([] : List Data).length + t.length ≤ tlen b.toNat ∧ ∀ v ∈ t, v.toNat < maxs b.toNat
  · obtain ⟨u, hpass, hu⟩ := h.entries_pass hfit.1 hfit.2 htable
    refine hpass.stops (hu.ldend_stops fun hlen => ht ⟨?_, List.forall_mem_map.2 hfit.2⟩)
    rwa [List.length_map]
  · exact (h.entries_stop hfit (Nat.zero_le _) htable).append [.ldend]

/-- The first command of a table beyond `R_MAX` stops the driver: `LDEND` if the table is empty, else its first entry. -/
theorem Holding.table_beyond_stops (t : List Data) (htable : s.cfg.rMax ≤ done.length) :
    Stops (loadTable t) (beyondStatus b.toNat (t.map BitVec.toNat)) s := by
  have htlen : 0 < tlen b.toNat := Nat.mul_pos two_pos (maxs_pos _)
  cases t with
  | nil => exact h.ldend_stops htlen.ne
  | cons v vs =>
    rw [List.map_cons, beyondStatus]
    split_ifs with hv
    · exact (h.ldent_stops_cap htlen hv htable).append (vs.map .ldent ++ [.ldend])
    · exact (h.ldent_stops_config (.inr (not_lt.1 hv))).append (vs.map .ldent ++ [.ldend])

/-- Valid tables for which the store has room are ended in order. -/
theorem Holding.tables_pass {ts : List (List Data)} (hv : ValidSchedule b.toNat (tablesToNat ts))
    (hroom : done.length + ts.length ≤ s.cfg.rMax) :
    ∃ u, Passes (ts.flatMap loadTable) s u ∧ Holding b (done ++ ts) [] u := by
  induction ts generalizing done s with
  | nil => exact ⟨s, .nil s, by rwa [List.append_nil]⟩
  | cons t ts ih =>
    obtain ⟨ht, hts⟩ := validSchedule_cons.1 hv
    rw [List.length_cons] at hroom
    obtain ⟨u, hpass, hu⟩ := h.table_passes ht (by omega)
    have hroom' : (done ++ [t]).length + ts.length ≤ u.cfg.rMax := by
      rw [hpass.cfg_eq, List.length_append, List.length_singleton]
      omega
    obtain ⟨w, hpass', hw⟩ := ih hu hts hroom'
    exact ⟨w, hpass.append hpass', by rwa [List.append_assoc] at hw⟩

/-- The driver stops at the first fault of the stream. -/
theorem Holding.tables_stop {ts : List (List Data)} {room : Nat} {st : Status} (hroom : done.length + room = s.cfg.rMax)
    (hst : streamFault b.toNat room (tablesToNat ts) = some st) : Stops (ts.flatMap loadTable) st s := by
  induction ts generalizing done s room with
  | nil => simp [tablesToNat, streamFault] at hst
  | cons t ts ih =>
    cases room with
    | zero =>
      obtain rfl : beyondStatus b.toNat (t.map BitVec.toNat) = st := Option.some.inj hst
      exact (h.table_beyond_stops t hroom.ge).append (ts.flatMap loadTable)
    | succ room =>
      have htable : done.length < s.cfg.rMax := by omega
      by_cases ht : ValidTable b.toNat (t.map BitVec.toNat)
      · obtain ⟨u, hpass, hu⟩ := h.table_passes ht htable
        refine hpass.stops (ih hu ?_ ((if_pos ht).symm.trans hst))
        rw [hpass.cfg_eq, List.length_append, List.length_singleton]
        omega
      · obtain rfl : Status.config = st := Option.some.inj ((if_neg ht).symm.trans hst)
        exact (h.table_stops ht htable).append (ts.flatMap loadTable)

end Tables

/-! ### The faults of a stream in the words of R124 -/

theorem streamFault_eq_none_iff {b room : Nat} {ts : List (List Nat)} :
    streamFault b room ts = none ↔ ValidSchedule b ts ∧ ts.length ≤ room := by
  fun_induction streamFault b room ts with
  | case1 => exact ⟨fun _ => ⟨List.forall_mem_nil _, Nat.zero_le _⟩, fun _ => rfl⟩
  | case2 => simp
  | case3 room t ts ht ih =>
    rw [ih, validSchedule_cons, and_iff_right ht, List.length_cons, Nat.succ_le_succ_iff]
  | case4 room t ts ht => simp only [validSchedule_cons, ht, false_and, reduceCtorEq]

theorem beyondStatus_eq_cap_iff {b : Nat} {t : List Nat} :
    beyondStatus b t = .cap ↔ ∃ v rest, t = v :: rest ∧ v < maxs b := by
  cases t <;> simp [beyondStatus]

theorem streamFault_eq_cap_iff {b room : Nat} {ts : List (List Nat)} : streamFault b room ts = some .cap ↔
    (∀ row ∈ ts.take room, ValidTable b row) ∧ ∃ v rest, ts[room]? = some (v :: rest) ∧ v < maxs b := by
  fun_induction streamFault b room ts with
  | case1 => simp
  | case2 => simp [beyondStatus_eq_cap_iff]
  | case3 room t ts ht ih =>
    rw [ih, List.take_succ_cons, List.forall_mem_cons, and_iff_right ht, List.getElem?_cons_succ]
  | case4 room t ts ht =>
    simp only [List.take_succ_cons, List.forall_mem_cons, ht, false_and, Option.some.injEq, reduceCtorEq]

theorem beyondStatus_cap_or_config (b : Nat) (t : List Nat) : beyondStatus b t = .cap ∨ beyondStatus b t = .config := by
  cases t with
  | nil => exact .inr rfl
  | cons v _ => exact (ite_eq_or_eq (v < maxs b) Status.cap Status.config)

theorem streamFault_cap_or_config {b room : Nat} {ts : List (List Nat)} {st : Status}
    (h : streamFault b room ts = some st) : st = .cap ∨ st = .config := by
  fun_induction streamFault b room ts with
  | case1 => cases h
  | case2 t ts => exact Option.some.inj h ▸ beyondStatus_cap_or_config b t
  | case3 room t ts ht ih => exact ih h
  | case4 room t ts ht => exact .inr (Option.some.inj h).symm

/-! ### The load as a whole (42_table_load.md R124) -/

theorem validTables_iff {b : Nat} {ts : List (List Nat)} :
    validTables b ts = true ↔ validBitSize b = true ∧ 1 ≤ ts.length ∧ ValidSchedule b ts := by
  simp [validTables, and_assoc]

/-- Valid tables that fit pass, and leave the engine `READY` with exactly those tables. -/
theorem load_passes {s : State} {b : BitVec 8} {ts : List (List Data)} (h : s.Inv) (hp : s.phase = .empty)
    (hv : validTables b.toNat (tablesToNat ts) = true) (hb : b.toNat ≤ s.cfg.bMax) (hn : ts.length ≤ s.cfg.rMax) :
    ∃ t, Passes (loadCommands b ts) s t ∧ t.Inv ∧ t.phase = .ready ∧ t.bitsz = b ∧ t.rounds.toNat = ts.length
      ∧ t.wptr = 0
      ∧ ∀ r i, (t.readCell r i).map BitVec.toNat = (tablesToNat ts)[r]?.bind fun row => row[i]? := by
  obtain ⟨hsize, hsome, hvalid⟩ := validTables_iff.1 hv
  obtain ⟨u, hpass, hu⟩ := ldcfg_passes h hp hsize hb
  obtain ⟨w, hpass', hw⟩ := hu.tables_pass hvalid (by rw [hpass.cfg_eq, List.length_nil, Nat.zero_add]; exact hn)
  obtain ⟨hinv, hload, hbitsz, hrounds, hwptr, hcells⟩ := hw
  have hwptr : w.wptr = 0 := BitVec.eq_of_toNat_eq hwptr
  have hexec : exec .sealLoad w = _ := execSeal_of_closed hload hwptr (by rw [hrounds]; simpa [tablesToNat] using hsome)
  refine ⟨_, (hpass.append hpass').append (passes_of_exec hexec rfl rfl), exec_inv hinv hexec, rfl, hbitsz, hrounds,
    hwptr, fun r i => ?_⟩
  refine (hcells r i).trans ?_
  rw [tablesToNat, List.map_append, List.map_singleton, List.map_nil, entry_append_nil]
  rfl

theorem Passes.drive_eq {is : List Instr} {s u : State} (h : Passes is s u) : drive is s = .next u := by
  simpa [drive] using h.drive_append []

/-- Settles O37: the commands pass, and the store holds the tables ended. -/
theorem loadOfValidTablesBuildsTheCipher : Obligations.LoadOfValidTablesBuildsTheCipher := by
  intro s b ts h hp hv hb hn
  obtain ⟨t, hpass, -, hready, hbitsz, hrounds, hwptr, hcells⟩ := load_passes h hp hv hb hn
  exact ⟨t, hpass.drive_eq, hready, hbitsz, hrounds, hwptr, hpass.rsps_eq, hcells⟩

/-- An engine in `EMPTY` is as after reset. -/
theorem State.Inv.arch_of_empty {s : State} (h : s.Inv) (hp : s.phase = .empty) : s.arch = State.resetOf s.cfg := by
  have hrtr := h.storeOwned.rtr_of_empty hp
  obtain ⟨-, ⟨hempty, -, -, -⟩, -⟩ := h
  obtain ⟨hb, hr, hw⟩ := hempty hp
  rw [State.arch, hp, hb, hr, hw, hrtr]
  rfl

/-- R124 (b) to (d): the first fault in stream order is one of capacity. -/
def CapFault (c : Config) (b : Nat) (ts : List (List Nat)) : Prop :=
  validBitSize b = true ∧ (c.bMax < b ∨ streamFault b c.rMax ts = some .cap)

/-- Tables that are not valid or do not fit stop the driver, with `CAP` exactly for a fault of capacity, else with `CONFIG`. -/
theorem load_stops {s : State} {b : BitVec 8} {ts : List (List Data)} (h : s.Inv) (hp : s.phase = .empty)
    (hbad : ¬ (validTables b.toNat (tablesToNat ts) = true ∧ b.toNat ≤ s.cfg.bMax ∧ ts.length ≤ s.cfg.rMax)) :
    ∃ st, Stops (loadCommands b ts) st s ∧ (st = .cap ↔ CapFault s.cfg b.toNat (tablesToNat ts))
      ∧ (st = .cap ∨ st = .config) := by
  have hreset := h.arch_of_empty hp
  by_cases hsize : validBitSize b.toNat = true
  · by_cases hb : b.toNat ≤ s.cfg.bMax
    · obtain ⟨u, hpass, hu⟩ := ldcfg_passes h hp hsize hb
      have hcap : CapFault s.cfg b.toNat (tablesToNat ts)
          ↔ streamFault b.toNat u.cfg.rMax (tablesToNat ts) = some .cap := by
        rw [CapFault, hpass.cfg_eq]
        simp only [hsize, hb.not_gt, true_and, false_or]
      cases hfault : streamFault b.toNat u.cfg.rMax (tablesToNat ts) with
      | some st =>
        have hstop := hpass.stops (hu.tables_stop (by rw [List.length_nil, Nat.zero_add]) hfault)
        exact ⟨st, hstop.append [.sealLoad], by rw [hcap, hfault, Option.some.injEq], streamFault_cap_or_config hfault⟩
      | none =>
        obtain ⟨hvalid, hn⟩ := streamFault_eq_none_iff.1 hfault
        have hlen : (tablesToNat ts).length = ts.length := List.length_map _
        rw [hlen, hpass.cfg_eq] at hn
        have hempty : ¬ 1 ≤ (tablesToNat ts).length := fun hsome =>
          hbad ⟨validTables_iff.2 ⟨hsize, hsome, hvalid⟩, hb, hn⟩
        obtain rfl : ts = [] := List.eq_nil_of_length_eq_zero (by omega)
        exact ⟨.config, hpass.stops hu.seal_stops, by rw [hcap, hfault]; decide, .inr rfl⟩
    · have hstop := stops_of_exec (i := .ldcfg b) (execLdcfg_of_not_fits hp hsize (not_le.1 hb)) (by decide) hreset
      exact ⟨.cap, hstop.append _, iff_of_true rfl ⟨hsize, .inl (not_le.1 hb)⟩, .inl rfl⟩
  · have hsize' : validBitSize b.toNat = false := Bool.eq_false_iff.2 hsize
    have hstop := stops_of_exec (i := .ldcfg b) (execLdcfg_of_invalid hp hsize') (by decide) hreset
    exact ⟨.config, hstop.append _, iff_of_false (by decide) fun hcap => hsize hcap.1, .inr rfl⟩

/-- Settles O38: the driver stops at the first fault of the stream, which `streamFault` reads off the tables. -/
theorem rejectedLoadLeavesTheEngineEmpty : Obligations.RejectedLoadLeavesTheEngineEmpty := by
  intro s b ts h hp hbad
  obtain ⟨st, ⟨t, ht, harch, hstatus⟩, hcap, hst⟩ := load_stops h hp hbad
  refine ⟨t, by simpa using ht [], harch, ?_, fun hne => ?_⟩
  · rw [hstatus, decide_eq_true_iff, hcap, CapFault, streamFault_eq_cap_iff]
  · rw [hstatus, decide_eq_false_iff_not] at hne
    rw [hstatus, decide_eq_true_iff]
    exact hst.resolve_left hne

end Sys2Proof.Machine
end

section
/-! SUPPORT. Proofs that two ways of building a cipher end in the same engine: a load of the schedule of a seed and `INIT` (42_table_load.md
R124), `INIT` after `RST` (10_state.md R30), a load of what `RDT` answers (44_status_control.md R170). -/

namespace Sys2Proof.Machine

/-! ### When two finished ciphers are the same engine (10_state.md R29) -/

/-- In `READY` the cipher is within the capacities of the engine. -/
theorem State.Inv.ready_fits {s : State} (h : s.Inv) (hp : s.phase = .ready) :
    s.bitsz.toNat ≤ s.cfg.bMax ∧ 1 ≤ s.rounds.toNat ∧ s.rounds.toNat ≤ s.cfg.rMax ∧ s.wptr = 0 := by
  obtain ⟨-, ⟨-, hbitsz, -, hready⟩, -, -⟩ := h
  obtain ⟨-, -, hbits⟩ := hbitsz (by simp [hp])
  obtain ⟨hsome, hrounds, hwptr, -⟩ := hready hp
  exact ⟨hbits, hsome, hrounds, hwptr⟩

/-- In `READY` every value of the store is in a cell that the engine has. -/
theorem State.Inv.readCell_eq_read {s : State} (h : s.Inv) (hp : s.phase = .ready) (r i : Nat) :
    s.readCell r i = s.rtr.read (r, i) := by
  obtain ⟨hbits, -, hrounds, -⟩ := h.ready_fits hp
  obtain ⟨-, -, -, howned⟩ := h
  cases hread : s.rtr.read (r, i) with
  | none => simp [State.readCell, hread]
  | some v =>
    obtain ⟨hr, hi⟩ := (State.owns_ready hp _).1 (howned _ (Memory.mem_of_read hread))
    rw [State.readCell, if_pos ((cellExists_iff ..).2 ⟨hr.trans_le hrounds, hi.trans_le (tlen_le_lMax hbits)⟩), hread]

/-- Two finished ciphers that read alike are the same engine. -/
theorem State.Inv.arch_eq_of_ready {s t : State} (hs : s.Inv) (ht : t.Inv) (hps : s.phase = .ready) (hpt : t.phase = .ready)
    (hcfg : s.cfg = t.cfg) (hbitsz : s.bitsz = t.bitsz) (hrounds : s.rounds = t.rounds)
    (hcells : ∀ r i, (s.readCell r i).map BitVec.toNat = (t.readCell r i).map BitVec.toNat) : s.arch = t.arch := by
  have hwptr : s.wptr = t.wptr := by
    obtain ⟨-, -, -, hws⟩ := hs.ready_fits hps
    obtain ⟨-, -, -, hwt⟩ := ht.ready_fits hpt
    rw [hws, hwt]
  have hrtr : s.rtr = t.rtr := Memory.ext_of_wf hs.storeOwned.1 ht.storeOwned.1 fun (r, i) => by
    rw [← hs.readCell_eq_read hps, ← ht.readCell_eq_read hpt]
    exact Option.map_injective (fun _ _ => BitVec.eq_of_toNat_eq) (hcells r i)
  rw [State.arch, State.arch, hcfg, hps, hpt, hbitsz, hrounds, hwptr, hrtr]

/-! ### What `INIT` builds (42_table_load.md R124; 10_state.md R30) -/

/-- A valid `INIT` that fits, from an empty engine: the cipher of the schedule, and nothing else in the store. -/
theorem State.Inv.init_builds {s : State} {a b : BitVec 8} (d : Data) (h : s.Inv) (hp : s.phase = .empty)
    (ha : validBitSize a.toNat = true) (hb : validRounds b.toNat = true) (hbits : a.toNat ≤ s.cfg.bMax)
    (hrounds : b.toNat ≤ s.cfg.rMax) :
    ∃ u, exec (.init a b d) s = .next u ∧ u.Inv ∧ u.phase = .ready ∧ u.cfg = s.cfg ∧ u.bitsz = a ∧ u.rounds = b
      ∧ ∀ r i, (u.readCell r i).map BitVec.toNat
        = (ksg (prngOf s.cfg.prng) a.toNat d b.toNat)[r]?.bind fun row => row[i]? := by
  obtain ⟨-, -, -, hbuild⟩ := initBuildsTheCipher s a b d h.1
  obtain ⟨u, hexec, hready, hbitsz, hrounds, -, hcfg, -, -, hcells⟩ := hbuild hp ha hb hbits hrounds
  refine ⟨u, hexec, exec_inv h hexec, hready, hcfg, hbitsz, hrounds, fun r i => ?_⟩
  have hlive := (ksg_valid (prngOf_inRange s.cfg.prng) a.toNat d b.toNat).entry_isSome_iff r i
  rw [ksg_length] at hlive
  rw [hcells]
  split_ifs with hentry
  · rfl
  · rw [← hlive, Option.not_isSome_iff_eq_none] at hentry
    rw [hentry, State.readCell_of_rtr_nil (h.storeOwned.rtr_of_empty hp), Option.map_none]

/-- Settles O39: both engines read as the schedule. -/
theorem loadedScheduleEqualsInit : Obligations.LoadedScheduleEqualsInit := by
  intro s a b d ts h hp ha hb hbits hrounds hts
  have hlen : ts.length = b.toNat := by
    rw [← ksg_length (prngOf s.cfg.prng) a.toNat d b.toNat, ← hts, tablesToNat, List.length_map]
  have hvalid : validTables a.toNat (tablesToNat ts) = true := by
    rw [validTables_iff, hts, ksg_length]
    exact ⟨ha, (validRounds_iff _).1 hb, ksg_valid (prngOf_inRange _) _ _ _⟩
  obtain ⟨t, hpass, htinv, htready, htbitsz, htrounds, -, htcells⟩ :=
    load_passes h hp hvalid hbits (hlen.trans_le hrounds)
  obtain ⟨u, hexec, huinv, huready, hucfg, hubitsz, hurounds, hucells⟩ := h.init_builds d hp ha hb hbits hrounds
  refine ⟨t, u, hpass.drive_eq, hexec, htready, htinv.arch_eq_of_ready huinv htready huready ?_ ?_ ?_ fun r i => ?_⟩
  · rw [hpass.cfg_eq, hucfg]
  · rw [htbitsz, hubitsz]
  · exact BitVec.eq_of_toNat_eq (by rw [htrounds, hurounds, hlen])
  · rw [htcells, hts, hucells]

/-- Settles O31: `RST` empties the store, so the second `INIT` builds what it builds from `EMPTY`. -/
theorem reinitForgetsTheFirstSeed : Obligations.ReinitForgetsTheFirstSeed := by
  intro s a b a' b' d d' h hp ha hb hbits hrounds ha' hb' hbits' hrounds'
  obtain ⟨v, hexec, hvinv, -, hvcfg, -, -, -⟩ := h.init_builds d hp ha hb hbits hrounds
  have hrinv := exec_inv hvinv (exec_rst v)
  have hrcfg : (v.hardReset.emit .ok 0).cfg = s.cfg := hvcfg
  obtain ⟨t, hexec', htinv, htready, htcfg, htbitsz, htrounds, htcells⟩ :=
    hrinv.init_builds d' rfl ha' hb' (hrcfg ▸ hbits') (hrcfg ▸ hrounds')
  obtain ⟨u, hexec'', huinv, huready, hucfg, hubitsz, hurounds, hucells⟩ := h.init_builds d' hp ha' hb' hbits' hrounds'
  refine ⟨t, u, ?_, hexec'', htready, htinv.arch_eq_of_ready huinv htready huready ?_ ?_ ?_ fun r i => ?_⟩
  · rw [runAll_cons_of_next hexec, runAll_cons_of_next (exec_rst v), runAll_cons_of_next hexec', runAll]
  · rw [htcfg, hrcfg, hucfg]
  · rw [htbitsz, hubitsz]
  · rw [htrounds, hurounds]
  · rw [htcells, hrcfg, hucells]

/-! ### Export and re-import (44_status_control.md R170) -/

/-- The live region as the entries of a load: what `RDT` answers over it. -/
def State.exported (s : State) : List (List Data) := s.liveTables.map fun t => t.map (BitVec.ofNat 64)

theorem State.exported_entry (s : State) (r i : Nat) : (s.exported[r]?.bind fun t => t[i]?)
    = (s.liveTables[r]?.bind fun t => t[i]?).map (BitVec.ofNat 64) := by
  rw [State.exported, List.getElem?_map]
  cases s.liveTables[r]? <;> simp

/-- The values of a finished cipher's cells have at most the 32 bits of a cell. -/
theorem State.Inv.maxs_le_cell {s : State} (h : s.Inv) (hp : s.phase = .ready) : maxs s.bitsz.toNat ≤ 2 ^ 32 := by
  obtain ⟨hbits, -⟩ := h.ready_fits hp
  exact (maxs_le_mMax hbits).trans (mMax_le_of_admissible h.1)

/-- The exported entries are the tables' entries: none is cut by the 64 bits of `RES` and `D`. -/
theorem State.Inv.tablesToNat_exported {s : State} (h : s.Inv) (hp : s.phase = .ready) :
    tablesToNat s.exported = s.liveTables := by
  have hmaxs := h.maxs_le_cell hp
  rw [tablesToNat, State.exported, List.map_map]
  refine (List.map_congr_left fun t ht => ?_).trans (List.map_id' _)
  rw [Function.comp_apply, List.map_map]
  refine (List.map_congr_left fun v hv => ?_).trans (List.map_id' t)
  have hlt := (h.liveTables_valid hp t ht).2 v hv
  exact (BitVec.toNat_ofNat v 64).trans (Nat.mod_eq_of_lt (by omega))

/-- `RDT` of a live cell answers its exported entry. -/
theorem State.Inv.answerOf_rdt {s : State} (h : s.Inv) (hp : s.phase = .ready) {r i : Nat} (hr : r < s.rounds.toNat)
    (hi : i < tlen s.bitsz.toNat) : answerOf (.rdt (BitVec.ofNat 8 r) (BitVec.ofNat 64 i)) s
      = (s.exported[r]?.bind fun t => t[i]?).map (packResponse .ok) := by
  have hmaxs := h.maxs_le_cell hp
  have hra : (BitVec.ofNat 8 r).toNat = r :=
    (BitVec.toNat_ofNat r 8).trans (Nat.mod_eq_of_lt (hr.trans s.rounds.isLt))
  have hid : (BitVec.ofNat 64 i).toNat = i :=
    (BitVec.toNat_ofNat i 64).trans (Nat.mod_eq_of_lt (by unfold tlen at hi; omega))
  obtain ⟨v, hv, -⟩ := h.readCell_live hp hr hi
  have hexec : exec (.rdt (BitVec.ofNat 8 r) (BitVec.ofNat 64 i)) s = .next (s.emit .ok (v.setWidth 64)) :=
    execRdt_of_live hp (hra.symm ▸ hr) (hid.symm ▸ hi) (by rw [hra, hid, hv])
  rw [answerOf_of_emit hexec, State.exported_entry, State.liveTables_entry hr hi hv, Option.map_some, Option.map_some,
    BitVec.ofNat_toNat]

/-- A driver that has passed at least one command has `OK` as its last answer. -/
theorem Passes.lastStatusIs_ok {i : Instr} {is : List Instr} {s u : State} (h : Passes (i :: is) s u) :
    u.lastStatusIs .ok = true := by
  obtain ⟨-, -, hrsps⟩ := h
  rw [List.length_cons, List.replicate_succ', ← List.append_assoc] at hrsps
  simp [State.lastStatusIs, hrsps]

/-- Settles O56: the exported tables are valid and fit, and the engine they build reads like the one they came from. -/
theorem exportAndReimportReproduceTheCipher : Obligations.ExportAndReimportReproduceTheCipher := by
  intro s h hp
  have hnat := h.tablesToNat_exported hp
  have hlen : s.exported.length = s.rounds.toNat := by
    rw [State.exported, List.length_map, s.liveTables_length]
  obtain ⟨hbits, hsome, hrounds, -⟩ := h.ready_fits hp
  have hvalid : validTables s.bitsz.toNat (tablesToNat s.exported) = true := by
    rw [validTables_iff, hnat, s.liveTables_length]
    exact ⟨(validBitSize_iff _).2 (h.evenSize hp), hsome, h.liveTables_valid hp⟩
  have hreset : (State.resetOf s.cfg).Inv := invariantHoldsAfterReset.2 s.cfg h.1
  obtain ⟨t, hpass, htinv, hready, htbitsz, htrounds, -, htcells⟩ :=
    load_passes hreset rfl hvalid hbits (hlen.trans_le hrounds)
  refine ⟨s.exported, hlen, fun r hr i hi => h.answerOf_rdt hp hr hi, ?_, t, hpass.drive_eq, hpass.lastStatusIs_ok, ?_⟩
  · rw [State.exported, List.forall_mem_map]
    exact fun t ht => (List.length_map _).trans (h.liveTables_valid hp t ht).1
  · refine htinv.arch_eq_of_ready h hready hp hpass.cfg_eq htbitsz ?_ fun r i => ?_
    · exact BitVec.eq_of_toNat_eq (htrounds.trans hlen)
    · rw [htcells, hnat, h.readCell_eq_liveTables hp]

end Sys2Proof.Machine
end

section
/-! SUPPORT. Proofs of the causes of `CAP` and `INDEX` (40_validator.md R86; 44_status_control.md R170), and that only `INIT` uses the
generator (41_keyschedule.md R101). -/

namespace Sys2Proof.Machine

/-! ### The causes of `CAP` and `INDEX` -/

/-- The cause of `INDEX` (44_status_control.md R170), command by command. -/
def indexCause : Instr → State → Prop
  | .rdt a d, s => s.phase = .ready ∧ ¬ (a.toNat < s.rounds.toNat ∧ d.toNat < tlen s.bitsz.toNat)
  | .init .., _ => False
  | .ldcfg _, _ => False
  | .ldent _, _ => False
  | .ldend, _ => False
  | .sealLoad, _ => False
  | .enc _, _ => False
  | .dec _, _ => False
  | .stat, _ => False
  | .rst, _ => False

/-- The cause of `INDEX` in the words of R170. -/
theorem indexCause_iff (i : Instr) (s : State) : indexCause i s ↔
    ∃ (a : BitVec 8) (d : Data), i = .rdt a d ∧ s.phase = .ready
      ∧ (s.rounds.toNat ≤ a.toNat ∨ tlen s.bitsz.toNat ≤ d.toNat) := by
  cases i <;> simp [indexCause, imp_iff_not_or]

theorem capCause_init {a b : BitVec 8} {d : Data} {s : State} : capCause (.init a b d) s ↔
    s.phase = .empty ∧ validBitSize a.toNat = true ∧ validRounds b.toNat = true
      ∧ ¬ (a.toNat ≤ s.cfg.bMax ∧ b.toNat ≤ s.cfg.rMax) := by
  rw [capCause, validRounds_iff]
  refine and_congr_right fun _ => and_congr_right fun _ => ?_
  have hb : b ≠ 0 ↔ 1 ≤ b.toNat := by bv_omega
  rw [hb, not_and_or, not_le, not_le]

/-- The statuses `CAP` and `INDEX` are given exactly where their causes hold. -/
def CapacityFits (i : Instr) (s : State) (st : Status) : Prop :=
  (st = .cap ↔ capCause i s) ∧ (st = .index ↔ indexCause i s)

section CapacityFits

variable {i : Instr} {s : State}

theorem capacityFits_cap (hc : capCause i s) (hi : ¬ indexCause i s) : CapacityFits i s .cap :=
  ⟨iff_of_true rfl hc, iff_of_false (by decide) hi⟩

theorem capacityFits_index (hc : ¬ capCause i s) (hi : indexCause i s) : CapacityFits i s .index :=
  ⟨iff_of_false (by decide) hc, iff_of_true rfl hi⟩

theorem capacityFits_other {st : Status} (hst : st ≠ .cap ∧ st ≠ .index) (hc : ¬ capCause i s) (hi : ¬ indexCause i s) :
    CapacityFits i s st :=
  ⟨iff_of_false hst.1 hc, iff_of_false hst.2 hi⟩

end CapacityFits

theorem exec_capacityFits {i : Instr} {s t : State} (h : exec i s = .next t) :
    ∃ u st res, t = State.emit u st res ∧ CapacityFits i s st := by
  cases i with
  | init a b d =>
    obtain ⟨hp, rfl⟩ | ⟨-, hv, rfl⟩ | ⟨hp, ha, hb, hcap, rfl⟩ | ⟨-, -, -, hbits, hrounds, _, -, rfl⟩ := execInit_cases h
    · exact ⟨_, _, _, rfl, capacityFits_other (by decide) (fun hc => hp (capCause_init.1 hc).1) id⟩
    · refine ⟨_, _, _, rfl, capacityFits_other (by decide) (fun hc => ?_) id⟩
      obtain ⟨-, ha, hb, -⟩ := capCause_init.1 hc
      exact hv ⟨ha, hb⟩
    · exact ⟨_, _, _, rfl, capacityFits_cap (capCause_init.2 ⟨hp, ha, hb, hcap⟩) id⟩
    · refine ⟨_, _, _, rfl, capacityFits_other (by decide) (fun hc => ?_) id⟩
      obtain ⟨-, -, -, hcap⟩ := capCause_init.1 hc
      exact hcap ⟨hbits, hrounds⟩
  | ldcfg a =>
    obtain ⟨hp, rfl⟩ | ⟨-, hv, rfl⟩ | ⟨hp, hv, hcap, rfl⟩ | ⟨-, -, hfit, rfl⟩ := execLdcfg_cases h
    · exact ⟨_, _, _, rfl, capacityFits_other (by decide) (fun hc => hp hc.1) id⟩
    · exact ⟨_, _, _, rfl, capacityFits_other (by decide) (fun ⟨_, hvalid, _⟩ => hv hvalid) id⟩
    · exact ⟨_, _, _, rfl, capacityFits_cap ⟨hp, hv, not_le.1 hcap⟩ id⟩
    · exact ⟨_, _, _, rfl, capacityFits_other (by decide) (fun ⟨_, _, hcap⟩ => hcap.not_ge hfit) id⟩
  | ldent d =>
    obtain ⟨hp, rfl⟩ | ⟨-, hv, rfl⟩ | ⟨hp, hroom, hd, hcap, rfl⟩ | ⟨-, -, -, hfit, _, -, rfl⟩ := execLdent_cases h
    · exact ⟨_, _, _, rfl, capacityFits_other (by decide) (fun hc => hp hc.1) id⟩
    · exact ⟨_, _, _, rfl, capacityFits_other (by decide) (fun ⟨_, hroom, hd, _⟩ => hv ⟨hroom, hd⟩) id⟩
    · exact ⟨_, _, _, rfl, capacityFits_cap ⟨hp, hroom, hd, not_lt.1 hcap⟩ id⟩
    · exact ⟨_, _, _, rfl, capacityFits_other (by decide) (fun ⟨_, _, _, hcap⟩ => hcap.not_gt hfit) id⟩
  | ldend =>
    obtain ⟨-, rfl⟩ | ⟨-, -, rfl⟩ | ⟨-, -, rfl⟩ := execLdend_cases h <;>
      exact ⟨_, _, _, rfl, capacityFits_other (by decide) id id⟩
  | sealLoad =>
    obtain ⟨-, rfl⟩ | ⟨-, -, rfl⟩ | ⟨-, -, -, rfl⟩ := execSeal_cases h <;>
      exact ⟨_, _, _, rfl, capacityFits_other (by decide) id id⟩
  | enc d =>
    obtain ⟨-, rfl⟩ | ⟨-, -, rfl⟩ | ⟨-, -, _, -, rfl⟩ := execEnc_cases h <;>
      exact ⟨_, _, _, rfl, capacityFits_other (by decide) id id⟩
  | dec d =>
    obtain ⟨-, rfl⟩ | ⟨-, -, rfl⟩ | ⟨-, -, _, -, rfl⟩ := execDec_cases h <;>
      exact ⟨_, _, _, rfl, capacityFits_other (by decide) id id⟩
  | rdt a d =>
    obtain ⟨hp, rfl⟩ | ⟨hp, hv, rfl⟩ | ⟨-, hr, hi, _, -, rfl⟩ := execRdt_cases h
    · exact ⟨_, _, _, rfl, capacityFits_other (by decide) id fun hc => hp hc.1⟩
    · exact ⟨_, _, _, rfl, capacityFits_index id ⟨hp, hv⟩⟩
    · exact ⟨_, _, _, rfl, capacityFits_other (by decide) id fun hc => hc.2 ⟨hr, hi⟩⟩
  | stat | rst => exact ⟨_, _, _, (Host.Outcome.next.inj h).symm, capacityFits_other (by decide) id id⟩

/-- Settles O24: each branch of a command's checks is answered with the status of its own cause. -/
theorem capAndIndexExactlyForTheirCauses : Obligations.CapAndIndexExactlyForTheirCauses := by
  intro i s t h
  obtain ⟨u, st, res, rfl, hcap, hindex⟩ := exec_capacityFits h
  rw [State.lastStatusIs_emit_eq, State.lastStatusIs_emit_eq, decide_eq_true_iff, decide_eq_true_iff]
  exact ⟨hcap, hindex.trans (indexCause_iff i s)⟩

/-! ### The generator parameter (41_keyschedule.md R101) -/

/-- The engine as it would be with another generator. -/
def State.withPrng (p : PrngChoice) (s : State) : State := { s with cfg := { s.cfg with prng := p } }

/-- What a command does on an engine with another generator, given what it does on this one. -/
def withPrngOutcome (p : PrngChoice) : Host.Outcome State Fault Refusal → Host.Outcome State Fault Refusal
  | .next t => .next (t.withPrng p)
  | .fault f => .fault f
  | .refused r => .refused r

/-- The outcome of a check is the outcome of the branch it takes. -/
theorem withPrngOutcome_ite (p : PrngChoice) (c : Prop) [Decidable c] (x y : Host.Outcome State Fault Refusal) :
    withPrngOutcome p (if c then x else y) = if c then withPrngOutcome p x else withPrngOutcome p y :=
  apply_ite _ _ _ _

theorem State.writeCell_withPrng (p : PrngChoice) (s : State) (r i v : Nat) :
    (s.withPrng p).writeCell r i v = (s.writeCell r i v).map (State.withPrng p) := by
  rw [State.writeCell, State.writeCell, apply_ite (Option.map (State.withPrng p))]
  rfl

theorem exec_withPrng {i : Instr} (hi : ∀ a b d, i ≠ .init a b d) (p : PrngChoice) (s : State) :
    exec i (s.withPrng p) = withPrngOutcome p (exec i s) := by
  cases i with
  | init a b d => exact absurd rfl (hi a b d)
  | ldcfg a =>
    simp only [exec, execLdcfg, withPrngOutcome_ite]
    rfl
  | ldent d =>
    have hu : (s.withPrng p).writeCell (s.withPrng p).rounds.toNat (s.withPrng p).wptr.toNat d.toNat
        = (s.writeCell s.rounds.toNat s.wptr.toNat d.toNat).map (State.withPrng p) := State.writeCell_withPrng ..
    simp only [exec, execLdent, withPrngOutcome_ite, hu]
    cases s.writeCell s.rounds.toNat s.wptr.toNat d.toNat <;> rfl
  | ldend =>
    simp only [exec, execLdend, withPrngOutcome_ite]
    rfl
  | sealLoad =>
    simp only [exec, execSeal, withPrngOutcome_ite]
    rfl
  | enc d =>
    have hv : encodeFn (s.withPrng p).bitsz.toNat (s.withPrng p).schedule d.toNat
        = encodeFn s.bitsz.toNat s.schedule d.toNat := rfl
    simp only [exec, execEnc, withPrngOutcome_ite, hv]
    cases encodeFn s.bitsz.toNat s.schedule d.toNat <;> rfl
  | dec d =>
    have hv : decodeFn (s.withPrng p).bitsz.toNat (s.withPrng p).schedule d.toNat
        = decodeFn s.bitsz.toNat s.schedule d.toNat := rfl
    simp only [exec, execDec, withPrngOutcome_ite, hv]
    cases decodeFn s.bitsz.toNat s.schedule d.toNat <;> rfl
  | rdt a d =>
    have hv : (s.withPrng p).readCell a.toNat d.toNat = s.readCell a.toNat d.toNat := rfl
    simp only [exec, execRdt, withPrngOutcome_ite, hv]
    cases s.readCell a.toNat d.toNat <;> rfl
  | stat | rst => rfl

/-- Settles O32: no check and no effect of another command looks at the generator. -/
theorem onlyInitUsesTheGenerator : Obligations.OnlyInitUsesTheGenerator := by
  intro i s p hi
  refine (exec_withPrng hi p s).trans ?_
  cases exec i s <;> rfl

end Sys2Proof.Machine
end
